-- ==== Sys2Proof/Word.lean ====
section
/-! DEFINITION. The bit and the two fixed-width groups of bits (spec/00_scope.md R9, R16; spec/30_encoding.md R47, R48).
No wider word exists: "no other primitive type exists in the core domain" than the bit (spec/10_state.md R19). -/

namespace Sys2Proof

/-- A bit, "a value in {0,1}" (R9): `false` is 0 and `true` is 1. Exclusive-or (R12) is `^^`, complement is `!`. -/
abbrev Bit := Bool

/-- A data block: exactly 4 bits, d1 at index 0 (R47). -/
structure DataBlock where
  d1 : Bit
  d2 : Bit
  d3 : Bit
  d4 : Bit
deriving DecidableEq, Repr

/-- Seven bits laid out as `[p1, p2, d1, p3, d2, d3, d4]` (R48): the encoder's result, and equally any received word
of the decoder (spec/90_conflicts.md C6). -/
structure Codeword where
  p1 : Bit
  p2 : Bit
  d1 : Bit
  p3 : Bit
  d2 : Bit
  d3 : Bit
  d4 : Bit
deriving DecidableEq, Repr

end Sys2Proof
end

