-- ==== Sys2Proof/Config.lean ====
section
/-! DEFINITION. What is fixed for an instance: the constants of spec/00_scope.md R7 and the open parameter `MAX_BITS` of R8. -/

namespace Sys2Proof.Config

/-- `K`: bits in a data block (R7). -/
def K : Nat := 4

/-- `N`: bits in a codeword (R7). -/
def N : Nat := 7

/-- `HLEN`: bits in the header (R7). -/
def HLEN : Nat := 8

/-- `TLEN`: bits in the terminator (R7). -/
def TLEN : Nat := 8

/-- `HEADER`, 10101010 read left to right (R7). -/
def HEADER : List Bit := [true, false, true, false, true, false, true, false]

/-- `TERMINATOR`, 01010101 read left to right (R7). -/
def TERMINATOR : List Bit := [false, true, false, true, false, true, false, true]

/-- `MAX_BITS` of this instance: none, "the model takes `MAX_BITS` as unbounded" (spec/20_memory.md R36; log 11).
A bounded instance is `Machine.stepAt (some b)`. -/
def maxBits : Option Nat := none

end Sys2Proof.Config
end

