-- ==== Sys2Proof/Syntax.lean ====
section
/-! DEFINITION. The four function units and their commands (spec/00_scope.md R2; spec/30_encoding.md R58, R59). -/

namespace Sys2Proof

/-- The function units, which are also the values of the operation select `op` (R58). -/
inductive Op where
  | henc
  | hdec
  | fenc
  | fdec
deriving DecidableEq, Repr

/-- One command: the unit and its operand (R59), one constructor per row of the opcode table.
The operands of HENC and HDEC are fixed-width by type (spec/20_memory.md R33; spec/40_block_codec.md R72, R80);
those of FENC and FDEC are sequences of any finite length (R36). -/
inductive Instr where
  /-- `HENC`: Hamming(7,4) encode of a data block (R69). -/
  | henc (d : DataBlock)
  /-- `HDEC`: decode of a received word with single-error correction (R73). -/
  | hdec (r : Codeword)
  /-- `FENC`: frame encode of a payload (R83). -/
  | fenc (p : List Bit)
  /-- `FDEC`: frame decode of a frame (R89). -/
  | fdec (f : List Bit)
deriving DecidableEq, Repr

end Sys2Proof
end

