-- ==== Sys2Proof/WellFormed.lean ====
section
/-! DEFINITION. Which command bits are a command, and which commands an instance accepts
(spec/20_memory.md R33, R36; spec/30_encoding.md R59). -/

namespace Sys2Proof

/-- The bits are those of some command: two bits of `op`, and an operand of the width R33 gives the unit
(4 for HENC, 7 for HDEC, any for FENC and FDEC). "an operand of another length cannot be presented". -/
def commandWf : List Bit → Bool
  | false :: false :: arg => arg.length == Config.K
  | false :: true :: arg => arg.length == Config.N
  | true :: _ :: _ => true
  | _ => false

/-- A length is within `MAX_BITS`; `none` is the unbounded instance (R36). -/
def withinBound (bound : Option Nat) (len : Nat) : Bool :=
  match bound with
  | none => true
  | some b => decide (len ≤ b)

/-- An instance with this bound accepts the command: only FENC and FDEC have a bounded operand (R8, R36). -/
def Instr.wf (bound : Option Nat) : Instr → Bool
  | .henc _ => true
  | .hdec _ => true
  | .fenc p => withinBound bound p.length
  | .fdec f => withinBound bound f.length

end Sys2Proof
end

