-- ==== Sys2Proof/Decode.lean ====
section
/-! DEFINITION. From command bits to an instruction and back (spec/30_encoding.md R47, R48, R58, R59), the packing of a
bit sequence into a number (spec/00_scope.md R13), and the words of spec/opcode_table.json. Total on any bits. -/

namespace Sys2Proof

/-! ## Fields of the two fixed-width groups -/

/-- The 4 bits of a data block, d1 at index 0 (R47). -/
def bitsOfBlock (b : DataBlock) : List Bit := [b.d1, b.d2, b.d3, b.d4]

/-- The 7 bits of a word in the order `p1 p2 d1 p3 d2 d3 d4` (R48). -/
def bitsOfWord (w : Codeword) : List Bit := [w.p1, w.p2, w.d1, w.p3, w.d2, w.d3, w.d4]

/-- Exactly 4 bits as a data block (R47). -/
def blockOfBits : List Bit → Option DataBlock
  | [a, b, c, d] => some ⟨a, b, c, d⟩
  | _ => none

/-- Exactly 7 bits as a word, its fields taken by R48 and R54. -/
def wordOfBits : List Bit → Option Codeword
  | [p, q, a, r, b, c, d] => some ⟨p, q, a, r, b, c, d⟩
  | _ => none

/-! ## Operation select -/

/-- The code `op[1:0]` (R58). -/
def opCode : Op → BitVec 2
  | .henc => 0
  | .hdec => 1
  | .fenc => 2
  | .fdec => 3

/-- The unit a code selects: all four codes are used (R61). -/
def opOfCode (c : BitVec 2) : Op :=
  match c.getMsbD 0, c.getMsbD 1 with
  | false, false => .henc
  | false, true => .hdec
  | true, false => .fenc
  | true, true => .fdec

/-- The mnemonic of a unit (R2). -/
def mnemonic : Op → List Char
  | .henc => ['H', 'E', 'N', 'C']
  | .hdec => ['H', 'D', 'E', 'C']
  | .fenc => ['F', 'E', 'N', 'C']
  | .fdec => ['F', 'D', 'E', 'C']

/-- The unit a command is for. -/
def Instr.op : Instr → Op
  | .henc _ => .henc
  | .hdec _ => .hdec
  | .fenc _ => .fenc
  | .fdec _ => .fdec

/-- The operand of a command as a bit sequence (R32 `arg`). -/
def Instr.arg : Instr → List Bit
  | .henc d => bitsOfBlock d
  | .hdec r => bitsOfWord r
  | .fenc p => p
  | .fdec f => f

/-! ## The decoder and the encoder -/

/-- Why bits are no command (spec/92_eei_decisions.md D4; log 10). -/
inductive Reject where
  /-- Fewer than the two bits of `op` (R59). -/
  | noOp
  /-- `op` 00 with an operand that is not 4 bits (R33). -/
  | hencWidth
  /-- `op` 01 with an operand that is not 7 bits (R33). -/
  | hdecWidth
deriving DecidableEq, Repr

/-- What the decoder answers. -/
inductive Decoded where
  | command (i : Instr)
  | rejected (why : Reject)
deriving DecidableEq, Repr

/-- A unit with its operand as a command, where the operand has the unit's width (R33). -/
def commandOf (op : Op) (arg : List Bit) : Decoded :=
  match op with
  | .henc =>
    match blockOfBits arg with
    | some d => .command (.henc d)
    | none => .rejected .hencWidth
  | .hdec =>
    match wordOfBits arg with
    | some r => .command (.hdec r)
    | none => .rejected .hdecWidth
  | .fenc => .command (.fenc arg)
  | .fdec => .command (.fdec arg)

/-- The decoder: 2 bits of `op`, then the operand, index 0 first (R58, R59). -/
def decodeCommand : List Bit → Decoded
  | false :: false :: arg => commandOf .henc arg
  | false :: true :: arg => commandOf .hdec arg
  | true :: false :: arg => commandOf .fenc arg
  | true :: true :: arg => commandOf .fdec arg
  | _ => .rejected .noOp

/-- The two bits of `op`, most significant first (R58). -/
def opBits : Op → List Bit
  | .henc => [false, false]
  | .hdec => [false, true]
  | .fenc => [true, false]
  | .fdec => [true, true]

/-- The encoder: the bits of a command (R59). -/
def encode (i : Instr) : List Bit := opBits i.op ++ i.arg

/-! ## Packing (R13): index 0 is the most significant bit -/

/-- The number whose binary numeral is the sequence (R13; decision D3). -/
def packBits (s : List Bit) : Nat := s.foldl (fun v b => 2 * v + b.toNat) 0

/-- The sequence of `n` bits a number carries, most significant bit at index 0 (R13). -/
def unpackBits : Nat → Nat → List Bit
  | 0, _ => []
  | n + 1, v => v.testBit n :: unpackBits n v

/-- A data block as the vector `d[3:0]` (spec/20_memory.md R35). -/
def packBlock (b : DataBlock) : BitVec 4 := BitVec.ofNat 4 (packBits (bitsOfBlock b))

/-- A word as the vector `cw[6:0]` (R35). -/
def packWord (w : Codeword) : BitVec 7 := BitVec.ofNat 7 (packBits (bitsOfWord w))

/-! ## The words of spec/opcode_table.json -/

/-- The command bits an opcode-table word stands for (log 12). The table writes HENC as a 6-bit number, HDEC as a
9-bit number and FENC and FDEC by their 2 bits of `op` alone, that is with the empty operand. In whole bytes the
widths 6 and 2 look alike, so the two words 2 and 3 are read as FENC and FDEC there; with the exact width 2, 6 or 9
each number is the command of that many bits. A number that fits no row stands for no bits. -/
def tableCommand (nbits w : Nat) : List Bit :=
  if nbits = 2 ∨ nbits = 6 ∨ nbits = 9 then unpackBits nbits w
  else if w = 2 ∨ w = 3 then unpackBits 2 w
  else if w < 16 then unpackBits 6 w
  else if 128 ≤ w ∧ w < 256 ∧ 9 ≤ nbits then unpackBits 9 w
  else []

/-- The instruction the decoder reads from an opcode-table word; none where it rejects the bits. -/
def decodeTableWord (nbits w : Nat) : Option Instr :=
  match decodeCommand (tableCommand nbits w) with
  | .command i => some i
  | .rejected _ => none

end Sys2Proof
end

