-- ==== Sys2Proof/Machine/State.lean ====
section
/-! DEFINITION. The state of the hardware and of the transport in front of it (spec/10_state.md; spec/20_memory.md R32). -/

namespace Sys2Proof.Machine

/-- `FSTATE`: the two working states and the two terminal outcomes of the frame decoder (R22; spec/90_conflicts.md C1). -/
inductive FState where
  | scanning
  | decoding
  | done
  | rejected
deriving DecidableEq, Repr

/-- The two errors (spec/60_exceptions.md R105). -/
inductive ErrorKind where
  | frameFormatError
  | malformedAlignmentError
deriving DecidableEq, Repr

/-- `CAUSE`: why the frame was rejected (R23). -/
inductive Cause where
  | noCause
  | frameFormatError
  | malformedAlignmentError
deriving DecidableEq, Repr

/-- `status` of a response (spec/30_encoding.md R60): three values, the code 11 does not exist (R61, U7). -/
inductive Status where
  | ok
  | frameFormatError
  | malformedAlignmentError
deriving DecidableEq, Repr

/-- One response of the hardware (R32): the unit that answers (the model's tag, log 3), the status and the result. -/
structure Response where
  op : Op
  status : Status
  res : List Bit
deriving DecidableEq, Repr

/-- Who moves in one step (log 2): the transport offers the oldest waiting command, the frame decoder takes its
enabled step, the host takes the k-th pending response, or the host resets the hardware (spec/60_exceptions.md R122;
spec/70_reset_and_hazards.md R123). -/
inductive Turn where
  | accept
  | work
  | take (k : Nat)
  | rst
deriving DecidableEq, Repr

/-- What stops the machine. The spec's two errors are responses, not faults (spec/60_exceptions.md R110). -/
inductive Fault where
  /-- Raised by a DECODING step whose word is not inside FRAME. "No index outside `0 .. len(s)-1` is ever read"
  (R31), so no run reaches it (log 9). Safe: the model stops. -/
  | indexOutOfRange
deriving DecidableEq, Repr

/-- What the model gives no meaning. -/
inductive Refusal where
  /-- An instruction without a meaning yet; raised by no arm. Safe. -/
  | notModelled (mnemonic : String)
  /-- Raised when the oldest waiting bits are no command: they cannot be presented (R33, D4, U2, U3; log 10). Safe. -/
  | notPresentable (why : Reject)
  /-- Raised by a bounded instance for an operand above `MAX_BITS` (R36, U6; log 11). Safe. -/
  | operandTooLong
deriving DecidableEq, Repr

/-- The state. `fstate` to `busy` are the frame decoder (R22, R23); HENC, HDEC and FENC keep none (R25).
`responses` is what the hardware has issued; `waiting` and `turns` are the transport and the order of moves. -/
structure State where
  /-- `FSTATE` (R22). -/
  fstate : FState
  /-- `FRAME`, the operand of the FDEC operation (R23); outside an operation the model's choice (log 4, log 23). -/
  frame : List Bit
  /-- `M`, the number of words in the encoded payload (R23); where no rule gives it, the model's choice (log 4, log 5,
  log 23). -/
  m : Nat
  /-- `J`, the index of the next word to decode (R23). -/
  j : Nat
  /-- `OUT`, the data blocks decoded so far (R23). -/
  out : List Bit
  /-- `CAUSE` (R23). -/
  cause : Cause
  /-- An FDEC operation is in progress (R27, R129; log 6). -/
  busy : Bool
  /-- Responses issued and not yet taken, oldest first (R27, R32; log 3). -/
  responses : List Response
  /-- Commands offered and not yet accepted, oldest first, as command bits (R59, R129; log 1). -/
  waiting : List (List Bit)
  /-- Who moves in the next steps (log 2). -/
  turns : List Turn
deriving DecidableEq, Repr

/-- The machine after reset (R27): FSTATE SCANNING, J 0, OUT empty, CAUSE NONE, no operation, no response.
FRAME and M are unspecified there: DESIGN CHOICE, empty and 0 (log 4). The host has offered nothing (log 1, log 2). -/
def State.reset : State where
  fstate := .scanning
  frame := []
  m := 0
  j := 0
  out := []
  cause := .noCause
  busy := false
  responses := []
  waiting := []
  turns := []

end Sys2Proof.Machine
end

