-- ==== Sys2Proof/Machine/Operands.lean ====
section
/-! DEFINITION. How operands are cut into fields (spec/30_encoding.md R52, R53; spec/20_memory.md R40;
spec/41_frame_protocol.md R136). Every cut is by index from the left, none is out of range where its test has passed. -/

namespace Sys2Proof.Machine

/-- `s[a..b)` (spec/00_scope.md R10). -/
def slice (s : List Bit) (a b : Nat) : List Bit := (s.drop a).take (b - a)

/-- `f[0..8) = HEADER`, all 8 bits (R90). -/
def hasHeader (f : List Bit) : Bool := slice f 0 8 == Config.HEADER

/-- `f[L-8..L) = TERMINATOR`, all 8 bits (R90); used only after the test `L >= 16` (R137). -/
def hasTerminator (f : List Bit) : Bool := slice f (f.length - 8) f.length == Config.TERMINATOR

/-- The tests an operand of FDEC meets, in their order, and the error of the first that fails
(R63, R97, R112; spec/92_eei_decisions.md D8, D9). -/
def frameError (f : List Bit) : Option ErrorKind :=
  if f.length < 16 then some .frameFormatError
  else if hasHeader f = false ∨ hasTerminator f = false then some .frameFormatError
  else if (f.length - 16) % 7 ≠ 0 then some .malformedAlignmentError
  else none

/-- The test an operand of FENC meets (R64, R85; D7). -/
def payloadError (p : List Bit) : Option ErrorKind :=
  if p.length % 4 ≠ 0 then some .malformedAlignmentError else none

/-- `M = (len(FRAME) - 16) / 7` (R97). -/
def wordCount (f : List Bit) : Nat := (f.length - 16) / 7

/-- The encoded payload `f[8..L-8)` (R53, R92). -/
def bodyOf (f : List Bit) : List Bit := slice f 8 (f.length - 8)

/-- Word `j` of a frame, `f[8+7·j .. 15+7·j)` (R53); none where it is not inside the frame. -/
def readWord (f : List Bit) (j : Nat) : Option Codeword := wordOfBits (slice f (8 + 7 * j) (15 + 7 * j))

/-- The consecutive 4-bit blocks of a payload, left to right (R52). A trailing group of fewer than 4 bits is no
block; FENC has raised its error before it cuts such a payload (R85). -/
def blocksOf : List Bit → List DataBlock
  | a :: b :: c :: d :: rest => ⟨a, b, c, d⟩ :: blocksOf rest
  | _ => []

/-- The consecutive 7-bit words of an encoded payload, left to right (R53). A trailing group of fewer than 7 bits
is no word; FDEC has raised its error before it cuts such a body (R93). -/
def wordsOf : List Bit → List Codeword
  | p :: q :: a :: r :: b :: c :: d :: rest => ⟨p, q, a, r, b, c, d⟩ :: wordsOf rest
  | _ => []

end Sys2Proof.Machine
end

