-- ==== Sys2Proof/Machine/Flags.lean ====
section
/-! DEFINITION. The only flag-like values of the hardware: the syndrome bits and the error position
(spec/10_state.md R21), functions of the received word, never state and never part of a response (R81). -/

namespace Sys2Proof.Machine

/-- The three parity bits of a data block (R69; coverage R49). -/
def parity (d : DataBlock) : Bit × Bit × Bit :=
  (d.d1 ^^ d.d2 ^^ d.d4, d.d1 ^^ d.d3 ^^ d.d4, d.d2 ^^ d.d3 ^^ d.d4)

/-- `syndrome(r) = (c1, c2, c3)` over the received bits (R74). -/
def syndrome (r : Codeword) : Bit × Bit × Bit :=
  (r.p1 ^^ r.d1 ^^ r.d2 ^^ r.d4, r.p2 ^^ r.d1 ^^ r.d3 ^^ r.d4, r.p3 ^^ r.d2 ^^ r.d3 ^^ r.d4)

/-- `error_pos = c1 + 2·c2 + 4·c3` (R75), 0 for no error, else the position 1 to 7. -/
def errorPos : Bit × Bit × Bit → Nat
  | (c1, c2, c3) => c1.toNat + 2 * c2.toNat + 4 * c3.toNat

/-- A valid codeword: syndrome 000 (R62, spec/90_conflicts.md C6). -/
def isValidCodeword (r : Codeword) : Bool := syndrome r == (false, false, false)

end Sys2Proof.Machine
end

