-- ==== Sys2Proof/Machine/Ops.lean ====
section
/-! DEFINITION. The shared operations on the state: issuing a response, raising an error, the frame decoder's start and
end, reset, and what the host does (spec/60_exceptions.md R110; spec/41_frame_protocol.md R96 to R100;
spec/70_reset_and_hazards.md R123; spec/00_scope.md R6). -/

namespace Sys2Proof.Machine

/-! ## Codes at the boundary -/

/-- The code `status[1:0]` (R60). -/
def statusCode : Status → BitVec 2
  | .ok => 0
  | .frameFormatError => 1
  | .malformedAlignmentError => 2

/-- The code of FSTATE (R22). -/
def fstateCode : FState → BitVec 2
  | .scanning => 0
  | .decoding => 1
  | .done => 2
  | .rejected => 3

/-- The 2-bit output `fstate`, readable at any time (R30, R32). -/
def State.fstateOut (s : State) : BitVec 2 := fstateCode s.fstate

/-- The status that reports an error (R105). -/
def statusOf : ErrorKind → Status
  | .frameFormatError => .frameFormatError
  | .malformedAlignmentError => .malformedAlignmentError

/-- The value of CAUSE for an error (R23). -/
def causeOf : ErrorKind → Cause
  | .frameFormatError => .frameFormatError
  | .malformedAlignmentError => .malformedAlignmentError

/-! ## Responses -/

/-- The hardware issues a response; it stays until the host takes it (R32, R39). -/
def issue (r : Response) (s : State) : State := { s with responses := s.responses ++ [r] }

/-- `return e`: status OK and the result (R14). -/
def answerOk (op : Op) (res : List Bit) (s : State) : State := issue ⟨op, .ok, res⟩ s

/-- `raise X`, the one way an operation fails (R110): the response is the error's status with an empty result. For
FDEC, CAUSE takes the error and FSTATE becomes REJECTED, and the operation is over; for the other units no state
changes. Nothing is saved and control goes nowhere; there is no return from an error (R114). DESIGN CHOICE: FRAME,
which may hold any value once the operation is over (U9), keeps what it held (log 23); M likewise (log 5). -/
def raiseError (op : Op) (e : ErrorKind) (s : State) : State :=
  match op with
  | .fdec =>
    issue ⟨.fdec, statusOf e, []⟩ { s with cause := causeOf e, fstate := .rejected, busy := false }
  | .henc => issue ⟨.henc, statusOf e, []⟩ s
  | .hdec => issue ⟨.hdec, statusOf e, []⟩ s
  | .fenc => issue ⟨.fenc, statusOf e, []⟩ s

/-! ## The frame decoder's start and end -/

/-- Start of an FDEC operation, whatever FSTATE was (R96). M is not written here: it is not yet defined (log 5). -/
def startFrameDecoder (f : List Bit) (s : State) : State :=
  { s with fstate := .scanning, frame := f, j := 0, out := [], cause := .noCause, busy := true }

/-- Entry to DONE: the response is OK with OUT, and the operation is over (R99). DESIGN CHOICE: FRAME and M, which may
hold any value from then on (R26, U9), keep what they held (log 23). -/
def finishFrameDecoder (s : State) : State :=
  answerOk .fdec s.out { s with fstate := .done, busy := false }

/-! ## Reset and the host -/

/-- The event `rst` (R123): the operation in progress is abandoned without a response, FSTATE, J, OUT and CAUSE take
their reset values, no response is pending. FRAME and M are unspecified after it and take the values of log 4.
The transport is outside the hardware and keeps what it holds (log 7). -/
def resetEvent (s : State) : State :=
  { State.reset with waiting := s.waiting, turns := s.turns }

/-- The host offers a command: it joins the commands that wait in the transport (R32, R129; log 1). -/
def offer (c : List Bit) (s : State) : State := { s with waiting := s.waiting ++ [c] }

/-- A command offered to a busy unit waits in the transport, ahead of the later ones (R129, R45; log 8). -/
def keepWaiting (i : Instr) (s : State) : State := { s with waiting := encode i :: s.waiting }

/-- The host takes the k-th pending response (R6, R42 item 3; log 3). -/
def takeResponse (k : Nat) (s : State) : State := { s with responses := s.responses.eraseIdx k }

end Sys2Proof.Machine
end

