-- ==== Sys2Proof/Machine/BlockCodec.lean ====
section
/-! DEFINITION. The block codec: HENC and HDEC (spec/40_block_codec.md). The functions are shared with the frame units
(R82; decision D23). -/

namespace Sys2Proof.Machine

/-- `HENC(d) = [p1, p2, d1, p3, d2, d3, d4]` (R69). -/
def henc (d : DataBlock) : Codeword :=
  match parity d with
  | (p1, p2, p3) => ⟨p1, p2, d.d1, p3, d.d2, d.d3, d.d4⟩

/-- `w` with the bit at the 1-indexed position complemented; position `e` is index `e-1` (R11, R55, R76). -/
def flipAt (e : Nat) (w : Codeword) : Codeword :=
  match e with
  | 1 => { w with p1 := !w.p1 }
  | 2 => { w with p2 := !w.p2 }
  | 3 => { w with d1 := !w.d1 }
  | 4 => { w with p3 := !w.p3 }
  | 5 => { w with d2 := !w.d2 }
  | 6 => { w with d3 := !w.d3 }
  | 7 => { w with d4 := !w.d4 }
  | _ => w

/-- `correct(r, e)`: the working copy, with one bit flipped where `e ≠ 0` (R24, R76). -/
def correct (r : Codeword) (e : Nat) : Codeword := if e ≠ 0 then flipAt e r else r

/-- `extract(w) = [w[2], w[4], w[5], w[6]]` (R77). -/
def extract (w : Codeword) : DataBlock := ⟨w.d1, w.d2, w.d3, w.d4⟩

/-- `HDEC(r)` (R73): syndrome, error position, correction, extraction. Defined for every received word; two or more
flipped bits give a wrong block and no sign of it (R79). -/
def hdec (r : Codeword) : DataBlock := extract (correct r (errorPos (syndrome r)))

/-- `HENC`: one atomic step from operand to response; no error, no state (R69, R72, R25). -/
def execHenc (d : DataBlock) (s : State) : Host.Outcome State Fault Refusal :=
  .next (answerOk .henc (bitsOfWord (henc d)) s)

/-- `HDEC`: one atomic step from operand to response, which is the data alone (R73, R80, R81, R25). -/
def execHdec (r : Codeword) (s : State) : Host.Outcome State Fault Refusal :=
  .next (answerOk .hdec (bitsOfBlock (hdec r)) s)

end Sys2Proof.Machine
end

