-- ==== Sys2Proof/Machine/FrameProtocol.lean ====
section
/-! DEFINITION. The frame protocol: FENC, and FDEC as a function and as the state machine the spec names
(spec/41_frame_protocol.md). -/

namespace Sys2Proof.Machine

/-- What a unit answers: a result or an error (R14). -/
inductive Answer where
  | result (res : List Bit)
  | raised (e : ErrorKind)
deriving DecidableEq, Repr

/-- The encoded payload of some blocks: their codewords in order (R83, R84). -/
def encodeBlocks (bs : List DataBlock) : List Bit := bs.flatMap (fun b => bitsOfWord (henc b))

/-- The plaintext of some words: their data blocks in order (R89, R94). -/
def decodeWords (ws : List Codeword) : List Bit := ws.flatMap (fun w => bitsOfBlock (hdec w))

/-- `FENC(p)` (R83): the length test comes first (R85). -/
def wrap (p : List Bit) : Answer :=
  match payloadError p with
  | some e => .raised e
  | none => .result (Config.HEADER ++ encodeBlocks (blocksOf p) ++ Config.TERMINATOR)

/-- `FDEC(f)` as one function (R89): the tests, then the words of the body in order. -/
def unwrap (f : List Bit) : Answer :=
  match frameError f with
  | some e => .raised e
  | none => .result (decodeWords (wordsOf (bodyOf f)))

/-- The response an answer is (R60, R110). -/
def responseOfAnswer (op : Op) : Answer → Response
  | .result res => ⟨op, .ok, res⟩
  | .raised e => ⟨op, statusOf e, []⟩

/-- The response of a command, which depends on `op` and `arg` only (spec/20_memory.md R42 item 1). -/
def responseOf : Instr → Response
  | .henc d => ⟨.henc, .ok, bitsOfWord (henc d)⟩
  | .hdec r => ⟨.hdec, .ok, bitsOfBlock (hdec r)⟩
  | .fenc p => responseOfAnswer .fenc (wrap p)
  | .fdec f => responseOfAnswer .fdec (unwrap f)

/-- `FENC`: one atomic step from operand to frame or error (R83, R88). -/
def execFenc (p : List Bit) (s : State) : Host.Outcome State Fault Refusal :=
  match wrap p with
  | .result frame => .next (answerOk .fenc frame s)
  | .raised e => .next (raiseError .fenc e s)

/-- `FDEC`: an idle frame decoder starts the operation (R96), which its own steps carry on (`workStep`; log 14).
A busy one has not yet answered, and the command waits (R129; log 8). -/
def execFdec (f : List Bit) (s : State) : Host.Outcome State Fault Refusal :=
  if s.busy then .next (keepWaiting (.fdec f) s) else .next (startFrameDecoder f s)

/-- The SCANNING step: all the tests at once; entry to DECODING or to REJECTED (R97, R100). -/
def scanStep (s : State) : Host.Outcome State Fault Refusal :=
  match frameError s.frame with
  | some e => .next (raiseError .fdec e s)
  | none => .next { s with m := wordCount s.frame, fstate := .decoding }

/-- A DECODING step: the next word is decoded, or with no word left the decoder enters DONE (R98, R99). -/
def decodeStep (s : State) : Host.Outcome State Fault Refusal :=
  if s.j < s.m then
    match readWord s.frame s.j with
    | some w => .next { s with out := s.out ++ bitsOfBlock (hdec w), j := s.j + 1 }
    | none => .fault .indexOutOfRange
  else .next (finishFrameDecoder s)

/-- The frame decoder's enabled step; none without an operation in progress, none in DONE and REJECTED (R99, R100). -/
def workStep (s : State) : Host.Outcome State Fault Refusal :=
  if s.busy then
    match s.fstate with
    | .scanning => scanStep s
    | .decoding => decodeStep s
    | .done => .next s
    | .rejected => .next s
  else .next s

end Sys2Proof.Machine
end

