-- ==== Sys2Proof/Machine/Dispatch.lean ====
section
/-! DEFINITION. One arm per constructor of Instr, each one direct call of its meaning. -/

namespace Sys2Proof.Machine

def exec (i : Instr) (s : State) : Host.Outcome State Fault Refusal :=
  match i with
  | .henc d => Sys2Proof.Machine.execHenc d s
  | .hdec r => Sys2Proof.Machine.execHdec r s
  | .fenc p => Sys2Proof.Machine.execFenc p s
  | .fdec f => Sys2Proof.Machine.execFdec f s

end Sys2Proof.Machine
end

