-- ==== Sys2Proof/Machine/Transport.lean ====
section
/-! DEFINITION. How a waiting command comes to a unit, and who moves in one step (spec/20_memory.md R32, R36;
spec/60_exceptions.md R122; spec/70_reset_and_hazards.md R129). -/

namespace Sys2Proof.Machine

/-- The oldest waiting command is offered to its unit and runs. With nothing waiting the hardware waits (R124; log 13).
Bits that are no command are refused (log 10), and so is an operand above the instance's `MAX_BITS` (R36; log 11). -/
def acceptNext (bound : Option Nat) (s : State) : Host.Outcome State Fault Refusal :=
  match s.waiting with
  | [] => .next s
  | c :: rest =>
    match decodeCommand c with
    | .rejected why => .refused (.notPresentable why)
    | .command i =>
      if i.wf bound then exec i { s with waiting := rest } else .refused .operandTooLong

/-- One step in which the named agent moves; one that cannot move leaves the state as it is (log 2). -/
def takeTurn (bound : Option Nat) (t : Turn) (s : State) : Host.Outcome State Fault Refusal :=
  match t with
  | .accept => acceptNext bound s
  | .work => workStep s
  | .take k => .next (takeResponse k s)
  | .rst => .next (resetEvent s)

/-- Who moves when no order is left: the operation in progress, else the oldest waiting command (R134; log 2). -/
def defaultTurn (s : State) : Turn := if s.busy then .work else .accept

/-- The step of an instance with this bound on operands. -/
def stepBounded (bound : Option Nat) (s : State) : Host.Outcome State Fault Refusal :=
  match s.turns with
  | [] => takeTurn bound (defaultTurn s) s
  | t :: ts => takeTurn bound t { s with turns := ts }

/-- A command placed so that the very next step offers it to its unit (log 12). -/
def presentNext (c : List Bit) (s : State) : State :=
  { s with waiting := c :: s.waiting, turns := .accept :: s.turns }

end Sys2Proof.Machine
end

