-- ==== Sys2Proof/Machine/Step.lean ====
section
/-! DEFINITION. The step of the machine, and the placing of an opcode-table word. -/

namespace Sys2Proof.Machine

/-- The step of an instance whose `MAX_BITS` is the bound, `none` for unbounded (spec/20_memory.md R36; log 11). -/
def stepAt (bound : Option Nat) (s : State) : Host.Outcome State Fault Refusal := stepBounded bound s

/-- One step of the machine: the agent whose turn it is moves (log 2). -/
def step (s : State) : Host.Outcome State Fault Refusal := stepAt Config.maxBits s

/-- The instruction of an opcode-table word, offered so that the very next step runs it (log 12). -/
def State.withFetchWord (s : State) (nbits w : Nat) : State := presentNext (tableCommand nbits w) s

end Sys2Proof.Machine
end

