-- ==== Sys2Proof/Machine/Assembly.lean ====
section
/-! DEFINITION. The spec's assembly form of commands and responses (spec/30_encoding.md R67): text at the host's side of
the boundary, read into bits before anything is offered (R65). -/

namespace Sys2Proof.Machine

/-- `<empty>`, the text of the empty sequence (R67). -/
def emptyText : List Char := ['<', 'e', 'm', 'p', 't', 'y', '>']

/-- The text of a bit sequence, index 0 first (R10, R67). -/
def textOfBits (s : List Bit) : List Char :=
  if s = [] then emptyText else s.map (fun b => if b then '1' else '0')

/-- The bits of a text of `0` and `1`, in which spaces mean nothing; no other character is a bit (R65, R67; log 18). -/
def bitsOfDigits : List Char → Option (List Bit)
  | [] => some []
  | c :: cs =>
    if c = ' ' then bitsOfDigits cs
    else if c = '0' then (bitsOfDigits cs).map (false :: ·)
    else if c = '1' then (bitsOfDigits cs).map (true :: ·)
    else none

/-- The operand a text stands for (R67). -/
def bitsOfText (t : List Char) : Option (List Bit) := if t = emptyText then some [] else bitsOfDigits t

/-- One command a line: mnemonic, space, operand (R67). -/
def assemblyOf (i : Instr) : List Char := mnemonic i.op ++ ' ' :: textOfBits i.arg

/-- The unit a mnemonic names (R67). -/
def opOfMnemonic : List Char → Option Op
  | ['H', 'E', 'N', 'C'] => some .henc
  | ['H', 'D', 'E', 'C'] => some .hdec
  | ['F', 'E', 'N', 'C'] => some .fenc
  | ['F', 'D', 'E', 'C'] => some .fdec
  | _ => none

/-- The command a line of assembly stands for; none where it is none (R67, R33). -/
def assemble (line : List Char) : Option Instr :=
  match opOfMnemonic (line.take 4), line.drop 4 with
  | some op, ' ' :: operand =>
    match bitsOfText operand with
    | some arg =>
      match commandOf op arg with
      | .command i => some i
      | .rejected _ => none
    | none => none
  | _, _ => none

/-- The name of a status in a response (R60). -/
def statusText : Status → List Char
  | .ok => "OK".toList
  | .frameFormatError => "FRAME_FORMAT_ERROR".toList
  | .malformedAlignmentError => "MALFORMED_ALIGNMENT_ERROR".toList

/-- The response after `=>`: `OK` with the result, or the error's name alone (R67). -/
def responseText (r : Response) : List Char :=
  match r.status with
  | .ok => statusText .ok ++ ' ' :: textOfBits r.res
  | .frameFormatError => statusText .frameFormatError
  | .malformedAlignmentError => statusText .malformedAlignmentError

end Sys2Proof.Machine
end

