-- ==== Sys2Proof/Machine/Instances.lean ====
section
/-! DEFINITION. Several instances of the hardware side by side (spec/60_exceptions.md R121): "A model of `k` instances is
`k` independent copies of the model of one". -/

namespace Sys2Proof.Machine

/-- Instance `k` of a row of instances takes one step; no other is read or written (R121; log 17). There is nothing to
step at an index past the last instance. -/
def stepInstance (k : Nat) (bank : List State) : Host.Outcome (List State) Fault Refusal :=
  match bank[k]? with
  | none => .next bank
  | some s =>
    match step s with
    | .next t => .next (bank.set k t)
    | .fault r => .fault r
    | .refused r => .refused r

end Sys2Proof.Machine
end

