-- ==== Sys2Proof/Safety.lean ====
section
/-! DEFINITION. What a safe run is: the invariant of the state, what the host must present, and runs of the step
(spec/10_state.md R22, R23; spec/20_memory.md R33; spec/60_exceptions.md R110, R113; spec/70_reset_and_hazards.md R134). -/

namespace Sys2Proof.Machine

/-- A response the hardware can issue: an error has an empty result and comes from a unit that can raise it (R110, R113);
an OK result has the length R33 gives the unit, and FENC's is a legal frame (R87). -/
def Response.wf (r : Response) : Bool :=
  match r.status with
  | .ok =>
    match r.op with
    | .henc => r.res.length == 7
    | .hdec => r.res.length == 4
    | .fenc => frameError r.res == none
    | .fdec => r.res.length % 4 == 0
  | .frameFormatError => r.op == .fdec && r.res == []
  | .malformedAlignmentError => (r.op == .fenc || r.op == .fdec) && r.res == []

/-- What the frame decoder's registers hold in each value of FSTATE (R22, R23, R96 to R100). What it says of FRAME and M
in DONE and of FRAME in REJECTED is the model's choice, since they may hold any value there (U9; log 23). -/
abbrev frameDecoderInv (s : State) : Prop :=
  (s.fstate = .scanning → s.j = 0 ∧ s.out = [] ∧ s.cause = .noCause) ∧
  (s.fstate = .decoding →
    s.busy = true ∧ s.cause = .noCause ∧ frameError s.frame = none ∧ s.m = wordCount s.frame ∧ s.j ≤ s.m ∧
      s.out = decodeWords ((wordsOf (bodyOf s.frame)).take s.j)) ∧
  (s.fstate = .done →
    s.busy = false ∧ s.cause = .noCause ∧ frameError s.frame = none ∧ s.m = wordCount s.frame ∧ s.j = s.m ∧
      s.out = decodeWords (wordsOf (bodyOf s.frame))) ∧
  (s.fstate = .rejected →
    s.busy = false ∧ (frameError s.frame).map causeOf = some s.cause ∧ s.j = 0 ∧ s.out = [])

/-- The invariant every step keeps. -/
abbrev Invariant (s : State) : Prop := frameDecoderInv s ∧ ∀ r ∈ s.responses, r.wf = true

/-- Everything the host has offered is the bits of a command (R33). -/
abbrev Presentable (s : State) : Prop := ∀ c ∈ s.waiting, commandWf c = true

/-- The steps an FDEC operation in progress still takes (R101, R134). -/
def remainingSteps (s : State) : Nat :=
  if s.busy then
    match s.fstate with
    | .scanning =>
      match frameError s.frame with
      | some _ => 1
      | none => wordCount s.frame + 2
    | .decoding => s.m - s.j + 1
    | .done => 0
    | .rejected => 0
  else 0

/-- The steps of a whole FDEC operation on a frame, its start not counted: 1 in SCANNING, then 0 or `M + 1` in
DECODING (R101). -/
def fdecSteps (f : List Bit) : Nat :=
  match frameError f with
  | some _ => 1
  | none => wordCount f + 2

/-- `n` steps of the machine, ending at the first fault or refusal. -/
def runSteps : Nat → State → Host.Outcome State Fault Refusal
  | 0, s => .next s
  | n + 1, s =>
    match step s with
    | .next t => runSteps n t
    | .fault r => .fault r
    | .refused r => .refused r

/-- A meaning, then `n` steps of the machine. -/
def thenRun (n : Nat) : Host.Outcome State Fault Refusal → Host.Outcome State Fault Refusal
  | .next t => runSteps n t
  | .fault r => .fault r
  | .refused r => .refused r

/-- The two words of 7 bits differ in exactly these many positions (R79, spec/30_encoding.md R56). -/
def distance (v w : Codeword) : Nat :=
  ((bitsOfWord v).zip (bitsOfWord w)).countP (fun x => x.1 != x.2)

end Sys2Proof.Machine
end

