-- ==== Sys2Proof/Certificates/Slice0/Obligations.lean ====
section
/-! DEFINITION. The statements for the provers. Each formalises rules of spec/ named in its docstring. A statement about an
FDEC operation that runs undisturbed takes `turns = []`: the operation in progress then moves first (log 2). -/

open Sys2Proof Sys2Proof.Machine

/-! ## The block codec (spec/40_block_codec.md) -/

/-- R69: the command `00 d1 d2 d3 d4` is HENC of the block, and HENC completes in every state with status OK and
`[p1, p2, d1, p3, d2, d3, d4]` by the three parity formulas; nothing else of the state changes. -/
def Obligations.HencAnswersCodeword : Prop :=
  ∀ (d1 d2 d3 d4 : Bit) (s : State),
    decodeCommand [false, false, d1, d2, d3, d4] = .command (.henc ⟨d1, d2, d3, d4⟩) ∧
    exec (.henc ⟨d1, d2, d3, d4⟩) s =
      .next { s with responses := s.responses ++
        [⟨.henc, .ok, [d1 ^^ d2 ^^ d4, d1 ^^ d3 ^^ d4, d1, d2 ^^ d3 ^^ d4, d2, d3, d4]⟩] }

/-- R73, R75, R77: the command `01` and 7 bits is HDEC of that word, and HDEC completes in every state with status OK:
checks `c1 c2 c3` over the received bits, `e = c1 + 2·c2 + 4·c3`, the bit at index `e-1` complemented where `e ≠ 0`,
and `[w[2], w[4], w[5], w[6]]` of the corrected word; nothing else of the state changes. -/
def Obligations.HdecAnswersCorrectedDataBits : Prop :=
  ∀ (p1 p2 d1 p3 d2 d3 d4 : Bit) (s : State),
    let r : List Bit := [p1, p2, d1, p3, d2, d3, d4]
    let c1 := p1 ^^ d1 ^^ d2 ^^ d4
    let c2 := p2 ^^ d1 ^^ d3 ^^ d4
    let c3 := p3 ^^ d2 ^^ d3 ^^ d4
    let e := c1.toNat + 2 * c2.toNat + 4 * c3.toNat
    let w := if e ≠ 0 then r.modify (e - 1) (fun b => !b) else r
    e ≤ 7 ∧
    decodeCommand (false :: true :: r) = .command (.hdec ⟨p1, p2, d1, p3, d2, d3, d4⟩) ∧
    exec (.hdec ⟨p1, p2, d1, p3, d2, d3, d4⟩) s =
      .next { s with responses := s.responses ++
        [⟨.hdec, .ok, [w.getD 2 false, w.getD 4 false, w.getD 5 false, w.getD 6 false]⟩] }

/-- R74's last sentence, which the spec marks as derived: the syndrome is 000 exactly for the 16 valid codewords. -/
def Obligations.SyndromeZeroExactlyForCodewords : Prop :=
  ∀ r : Codeword, syndrome r = (false, false, false) ↔ ∃ d : DataBlock, r = henc d

/-- R76: the correction step makes a valid codeword of every received word (the spec's derived sentence) by flipping
exactly one bit where `e ≠ 0` and none where `e = 0`, and HDEC returns that codeword's data. -/
def Obligations.CorrectionReachesACodeword : Prop :=
  ∀ r : Codeword, ∃ d : DataBlock,
    correct r (errorPos (syndrome r)) = henc d ∧ hdec r = d ∧
    distance r (henc d) = (if errorPos (syndrome r) = 0 then 0 else 1)

/-- R78: HDEC of HENC gives the block back, and with the bit at any index `i` of 0..6 flipped the syndrome names
position `i + 1`, the correction gives the codeword back and HDEC answers the block unchanged, as if clean. -/
def Obligations.BlockRoundTripCorrectsAnySingleFlip : Prop :=
  ∀ (b : DataBlock) (s : State),
    exec (.hdec (henc b)) s = .next { s with responses := s.responses ++ [⟨.hdec, .ok, bitsOfBlock b⟩] } ∧
    ∀ (i : Nat) (r : Codeword), i ≤ 6 → wordOfBits ((bitsOfWord (henc b)).modify i (fun x => !x)) = some r →
      errorPos (syndrome r) = i + 1 ∧ correct r (errorPos (syndrome r)) = henc b ∧
      exec (.hdec r) s = .next { s with responses := s.responses ++ [⟨.hdec, .ok, bitsOfBlock b⟩] }

/-- R79 (its derived part): two flips at positions `a ≠ b` of a codeword give the error position `a XOR b`, which is
neither 0 nor `a` nor `b`; HDEC still completes with status OK, with the data of another codeword. -/
def Obligations.DoubleFlipIsMiscorrectedSilently : Prop :=
  ∀ (d : DataBlock) (a b : Nat) (s : State), 1 ≤ a → a ≤ 7 → 1 ≤ b → b ≤ 7 → a ≠ b →
    errorPos (syndrome (flipAt a (flipAt b (henc d)))) = (a ^^^ b) ∧
    (a ^^^ b) ≠ 0 ∧ (a ^^^ b) ≠ a ∧ (a ^^^ b) ≠ b ∧
    ∃ d' : DataBlock, d' ≠ d ∧
      exec (.hdec (flipAt a (flipAt b (henc d)))) s =
        .next { s with responses := s.responses ++ [⟨.hdec, .ok, bitsOfBlock d'⟩] }

/-- R70 items 1 to 4 and the distance sentence of R56, which the spec marks as derived: the data bits pass through, the
syndrome of a codeword is 000, different blocks give different codewords, the code is linear over exclusive-or, and two
different codewords differ in at least 3 bits, some two of them in exactly 3. -/
def Obligations.HencIsLinearWithDistanceThree : Prop :=
  (∀ d : DataBlock, extract (henc d) = d) ∧
  (∀ d : DataBlock, syndrome (henc d) = (false, false, false)) ∧
  (∀ d e : DataBlock, henc d = henc e → d = e) ∧
  (∀ d e : DataBlock,
    bitsOfWord (henc ⟨d.d1 ^^ e.d1, d.d2 ^^ e.d2, d.d3 ^^ e.d3, d.d4 ^^ e.d4⟩) =
      List.zipWith (fun x y => x ^^ y) (bitsOfWord (henc d)) (bitsOfWord (henc e))) ∧
  (∀ d e : DataBlock, d ≠ e → 3 ≤ distance (henc d) (henc e)) ∧
  (∃ d e : DataBlock, d ≠ e ∧ distance (henc d) (henc e) = 3)

/-- R56, R35 (derived in the spec; packing is decision D3): the sixteen valid codewords as 7-bit vectors, in the order of
their data `d[3:0]`. -/
def Obligations.SixteenCodewordsAreAsTabled : Prop :=
  ∀ d : DataBlock, (packWord (henc d)).toNat =
    [0x00, 0x69, 0x2A, 0x43, 0x4C, 0x25, 0x66, 0x0F, 0x70, 0x19, 0x5A, 0x33, 0x3C, 0x55, 0x16, 0x7F].getD
      (packBlock d).toNat 0

/-! ## Commands, codes and packing (spec/30_encoding.md, spec/00_scope.md) -/

/-- R58, R59 (decision D2): the encoder and the decoder are inverse to each other, every bit of every operand included,
and each command has one encoding. -/
def Obligations.DecodeAndEncodeAgree : Prop :=
  (∀ i : Instr, decodeCommand (encode i) = .command i) ∧
  (∀ (c : List Bit) (i : Instr), decodeCommand c = .command i → encode i = c)

/-- R33, R59 (decisions D2, D4): bits are rejected exactly where no command has them, for the reason that applies: fewer
than 2 bits, HENC with an operand that is not 4 bits, HDEC with an operand that is not 7 bits. -/
def Obligations.DecoderRejectsExactlyWhatCannotBePresented : Prop :=
  ∀ c : List Bit,
    (decodeCommand c = .rejected .noOp ↔ c.length < 2) ∧
    (decodeCommand c = .rejected .hencWidth ↔ 2 ≤ c.length ∧ c.take 2 = [false, false] ∧ c.length ≠ 6) ∧
    (decodeCommand c = .rejected .hdecWidth ↔ 2 ≤ c.length ∧ c.take 2 = [false, true] ∧ c.length ≠ 9) ∧
    ((∃ i, decodeCommand c = .command i) ↔ commandWf c = true)

/-- R58, R59 (decision D2): command bits written out, `op` then operand: HENC 1011 and HDEC 1110011 of
spec/95_test_vectors.md P4, FENC 1011 of P1, and an FDEC with the operand 10, which stands in no program. -/
def Obligations.SampleCommandsDecode : Prop :=
  decodeCommand [false, false, true, false, true, true] = .command (.henc ⟨true, false, true, true⟩) ∧
  decodeCommand [false, true, true, true, true, false, false, true, true] =
    .command (.hdec ⟨true, true, true, false, false, true, true⟩) ∧
  decodeCommand [true, false, true, false, true, true] = .command (.fenc [true, false, true, true]) ∧
  decodeCommand [true, true, true, false] = .command (.fdec [true, false])

/-- R13, R35 (decision D3): packing puts index 0 at the most significant bit, so that the packed value is below
`2^W`, its bit `W-1-i` is the bit at index `i`, and unpacking gives the sequence back; HEADER is 0xAA, TERMINATOR 0x55. -/
def Obligations.PackingPutsIndexZeroFirst : Prop :=
  (∀ s : List Bit, packBits s < 2 ^ s.length ∧ unpackBits s.length (packBits s) = s ∧
    ∀ i, i < s.length → (packBits s).testBit (s.length - 1 - i) = s.getD i false) ∧
  packBits Config.HEADER = 0xAA ∧ packBits Config.TERMINATOR = 0x55

/-- R22, R58, R60, R61 (decisions D2, D6, D12): the three codes; every code of `op` names a unit and no other unit has
it, status 11 is no status. -/
def Obligations.CodesAreAsTabled : Prop :=
  [opCode .henc, opCode .hdec, opCode .fenc, opCode .fdec] = [0b00, 0b01, 0b10, 0b11] ∧
  (∀ c : BitVec 2, opCode (opOfCode c) = c) ∧ (∀ op : Op, opOfCode (opCode op) = op) ∧
  [statusCode .ok, statusCode .frameFormatError, statusCode .malformedAlignmentError] = [0b00, 0b01, 0b10] ∧
  (∀ st : Status, statusCode st ≠ 0b11) ∧
  (∀ s : State, s.fstateOut = match s.fstate with
    | .scanning => 0b00
    | .decoding => 0b01
    | .done => 0b10
    | .rejected => 0b11)

/-- R67 (decision D22): a command written as a line of assembly is read back as that command. -/
def Obligations.AssemblyReadsBackItsCommand : Prop :=
  ∀ i : Instr, assemble (assemblyOf i) = some i

/-! ## FENC (spec/41_frame_protocol.md section 1) -/

/-- R84: FENC of a payload of whole blocks completes in every state with a frame of `16 + 7·n` bits between HEADER and
TERMINATOR, whose bits `8+7·i .. 14+7·i` are HENC of block `i` of the payload, for every `i`; nothing else changes. -/
def Obligations.FencEncodesBlocksInOrder : Prop :=
  ∀ (p : List Bit) (s : State), p.length % 4 = 0 →
    ∃ frame : List Bit,
      exec (.fenc p) s = .next { s with responses := s.responses ++ [⟨.fenc, .ok, frame⟩] } ∧
      frame.length = 16 + 7 * (p.length / 4) ∧
      slice frame 0 8 = Config.HEADER ∧ slice frame (frame.length - 8) frame.length = Config.TERMINATOR ∧
      ∀ i, i < p.length / 4 → ∃ b : DataBlock, blockOfBits (slice p (4 * i) (4 * i + 4)) = some b ∧
        slice frame (8 + 7 * i) (15 + 7 * i) = bitsOfWord (henc b)

/-- R85, R107, R110 (decisions D7, D10): FENC of a payload that is not whole blocks answers MalformedAlignmentError with
an empty result and changes nothing else, in every state. -/
def Obligations.FencRaisesOnMisalignedPayload : Prop :=
  ∀ (p : List Bit) (s : State), p.length % 4 ≠ 0 →
    exec (.fenc p) s =
      .next { s with responses := s.responses ++ [⟨.fenc, .malformedAlignmentError, []⟩] }

/-- R86 (derived in the spec): the empty payload gives the 16-bit frame `1010101001010101` with status OK. -/
def Obligations.FencOfEmptyPayload : Prop :=
  ∀ s : State, exec (.fenc []) s =
    .next { s with responses := s.responses ++ [⟨.fenc, .ok,
      [true, false, true, false, true, false, true, false, false, true, false, true, false, true, false, true]⟩] }

/-- R87 (its derived sentence): whatever FENC answers with status OK is a legal operand of FDEC, none of the cases of
R63. -/
def Obligations.FencAnswersLegalFrames : Prop :=
  ∀ (p : List Bit) (s t : State) (frame : List Bit), exec (.fenc p) s = .next t →
    t.responses = s.responses ++ [⟨.fenc, .ok, frame⟩] →
    16 ≤ frame.length ∧ slice frame 0 8 = Config.HEADER ∧
      slice frame (frame.length - 8) frame.length = Config.TERMINATOR ∧ (frame.length - 16) % 7 = 0

/-! ## FDEC (spec/41_frame_protocol.md sections 2 to 4) -/

/-- R96: FDEC accepted by an idle frame decoder, whatever FSTATE was: FSTATE SCANNING, FRAME the operand, J 0, OUT
empty, CAUSE NONE, the operation in progress; nothing else changes. M "is not yet defined", so what it holds is left
open (log 5). -/
def Obligations.FdecStartsInScanning : Prop :=
  ∀ (f : List Bit) (s : State), s.busy = false →
    ∃ m', exec (.fdec f) s = .next { s with
      fstate := .scanning, frame := f, m := m', j := 0, out := [], cause := .noCause, busy := true }

/-- R129 (decision D17), log 8: a frame decoder that has not answered accepts no FDEC; the command waits in the
transport ahead of the later ones and nothing else changes. -/
def Obligations.FdecWaitsForABusyDecoder : Prop :=
  ∀ (f : List Bit) (s : State), s.busy = true →
    exec (.fdec f) s = .next { s with waiting := (true :: true :: f) :: s.waiting }

/-- R97, R100 (decisions D8, D9, D12): the SCANNING step of an operation in progress, by a named turn or by default
(log 2). Too short, a wrong header or a wrong terminator: REJECTED with FrameFormatError. Else a body that is not whole
words: REJECTED with MalformedAlignmentError. Either way the response is that error with an empty result. Else DECODING
with `M`. That M and FRAME keep what they held on rejection is the model's choice (log 5, log 23). -/
def Obligations.ScanningStepChecksEverything : Prop :=
  ∀ (s : State) (ts : List Turn), s.turns = .work :: ts ∨ (s.turns = [] ∧ ts = []) →
    s.busy = true → s.fstate = .scanning →
    let L := s.frame.length
    let patternsHold := 16 ≤ L ∧ slice s.frame 0 8 = Config.HEADER ∧ slice s.frame (L - 8) L = Config.TERMINATOR
    (¬patternsHold → step s = .next { s with
      turns := ts, cause := .frameFormatError, fstate := .rejected, busy := false,
      responses := s.responses ++ [⟨.fdec, .frameFormatError, []⟩] }) ∧
    (patternsHold → (L - 16) % 7 ≠ 0 → step s = .next { s with
      turns := ts, cause := .malformedAlignmentError, fstate := .rejected, busy := false,
      responses := s.responses ++ [⟨.fdec, .malformedAlignmentError, []⟩] }) ∧
    (patternsHold → (L - 16) % 7 = 0 → step s = .next { s with turns := ts, m := (L - 16) / 7, fstate := .decoding })

/-- R98, R99 (decisions D12, D13): a DECODING step of an operation in progress, by a named turn or by default (log 2).
With `J < M` the 7 bits at `8+7·J .. 14+7·J` are decoded, OUT grows by their block and J by 1; else DONE, with the response
OK and OUT. That FRAME and M keep what they held on entry to DONE is the model's choice (log 23). In states no run reaches
the model also goes to DONE where J is above M (log 15), and stops by name where the word is not inside FRAME (log 9). -/
def Obligations.DecodingStepTakesOneWord : Prop :=
  ∀ (s : State) (ts : List Turn), s.turns = .work :: ts ∨ (s.turns = [] ∧ ts = []) →
    s.busy = true → s.fstate = .decoding →
    (∀ w : Codeword, s.j < s.m → wordOfBits (slice s.frame (8 + 7 * s.j) (15 + 7 * s.j)) = some w →
      step s = .next { s with turns := ts, out := s.out ++ bitsOfBlock (hdec w), j := s.j + 1 }) ∧
    (s.j < s.m → wordOfBits (slice s.frame (8 + 7 * s.j) (15 + 7 * s.j)) = none →
      step s = .fault .indexOutOfRange) ∧
    (s.m ≤ s.j → step s = .next { s with
      turns := ts, fstate := .done, busy := false, responses := s.responses ++ [⟨.fdec, .ok, s.out⟩] })

/-- R99, R100: in DONE and in REJECTED no step of the frame decoder is enabled and nothing is retried. That its turn is
then used up and leaves everything else alone is the model's choice (log 2); that this holds also with `busy` set, which no
run reaches, is log 15. -/
def Obligations.TerminalStatesHaveNoStep : Prop :=
  ∀ (s : State) (ts : List Turn), s.fstate = .done ∨ s.fstate = .rejected → s.turns = .work :: ts →
    step s = .next { s with turns := ts }

/-- R94, by the run of R96 to R100 (decisions D12, D13; log 2, log 14): FDEC of a legal frame of `16 + 7·m` bits
completes: run on undisturbed from its acceptance, the machine comes to DONE with status OK and a plaintext of `4·m` bits
whose bits `4·j .. 4·j+3` are HDEC of the frame's bits `8+7·j .. 14+7·j`, for every `j`. That FRAME and M still hold the
frame and `m` there is the model's choice (log 23). -/
def Obligations.FdecDecodesWordsInOrder : Prop :=
  ∀ (f : List Bit) (m : Nat) (s : State), s.busy = false → s.turns = [] → f.length = 16 + 7 * m →
    slice f 0 8 = Config.HEADER → slice f (f.length - 8) f.length = Config.TERMINATOR →
    ∃ (n : Nat) (text : List Bit),
      thenRun n (exec (.fdec f) s) = .next { s with
        fstate := .done, frame := f, m := m, j := m, out := text, cause := .noCause, busy := false,
        responses := s.responses ++ [⟨.fdec, .ok, text⟩] } ∧
      text.length = 4 * m ∧
      ∀ j, j < m → ∃ w : Codeword, wordOfBits (slice f (8 + 7 * j) (15 + 7 * j)) = some w ∧
        slice text (4 * j) (4 * j + 4) = bitsOfBlock (hdec w)

/-- R103: FDEC accepts any words between HEADER and TERMINATOR, valid codewords or not, with status OK; a body of all
zeros decodes to all zeros, a body of all ones to all ones. -/
def Obligations.FdecAcceptsAnyBody : Prop :=
  ∀ (ws : List Codeword) (s : State), s.busy = false → s.turns = [] →
    ∃ (n : Nat) (t : State) (text : List Bit),
      thenRun n (exec (.fdec (Config.HEADER ++ ws.flatMap bitsOfWord ++ Config.TERMINATOR)) s) = .next t ∧
      t.fstate = .done ∧ t.responses = s.responses ++ [⟨.fdec, .ok, text⟩] ∧ text.length = 4 * ws.length ∧
      ∀ b : Bit, ws.flatMap bitsOfWord = List.replicate (7 * ws.length) b → text = List.replicate (4 * ws.length) b

/-- R101 (derived in the spec; log 14): the state machine and the function `unwrap` of R89 agree. An undisturbed FDEC
operation ends after 1 SCANNING step and then 0 or `M + 1` DECODING steps, in DONE with OUT what the function returns or
in REJECTED with CAUSE what it raises, with that response; before its last step it has issued none and is in a working
state. The order of moves is log 2; that FRAME and M still hold their values at the end is the model's choice (log 23),
and M is left open on rejection (log 5). -/
def Obligations.StateMachineAgreesWithUnwrap : Prop :=
  ∀ (f : List Bit) (s : State), s.busy = false → s.turns = [] →
    (∀ out, unwrap f = .result out →
      thenRun (1 + ((f.length - 16) / 7 + 1)) (exec (.fdec f) s) = .next { s with
        fstate := .done, frame := f, m := (f.length - 16) / 7, j := (f.length - 16) / 7, out := out,
        cause := .noCause, busy := false, responses := s.responses ++ [⟨.fdec, .ok, out⟩] }) ∧
    (∀ e, unwrap f = .raised e →
      ∃ m', thenRun 1 (exec (.fdec f) s) = .next { s with
        fstate := .rejected, frame := f, m := m', j := 0, out := [], cause := causeOf e, busy := false,
        responses := s.responses ++ [⟨.fdec, statusOf e, []⟩] }) ∧
    (∀ k, k < fdecSteps f → ∃ t, thenRun k (exec (.fdec f) s) = .next t ∧ t.busy = true ∧
      t.responses = s.responses ∧ (t.fstate = .scanning ∨ t.fstate = .decoding))

/-- R90, by the run of R96, R97 and R100 (decision D12; log 2, log 14): an operand whose first 8 bits are not HEADER or
whose last 8 bits are not TERMINATOR, one wrong bit being enough, is answered with FrameFormatError and an empty result;
the decoder is in REJECTED. That FRAME still holds the operand there is the model's choice (log 23). -/
def Obligations.WrongHeaderOrTerminatorIsRejected : Prop :=
  ∀ (f : List Bit) (s : State), s.busy = false → s.turns = [] →
    (slice f 0 8 ≠ Config.HEADER ∨ slice f (f.length - 8) f.length ≠ Config.TERMINATOR) →
    ∃ m', thenRun 1 (exec (.fdec f) s) = .next { s with
      fstate := .rejected, frame := f, m := m', j := 0, out := [], cause := .frameFormatError, busy := false,
      responses := s.responses ++ [⟨.fdec, .frameFormatError, []⟩] }

/-- R91 (decision D9), by the run of R96, R97 and R100 (log 2, log 14): every operand of fewer than 16 bits is answered
with FrameFormatError, also where header and terminator both match with overlap. That FRAME still holds the operand in
REJECTED is the model's choice (log 23). -/
def Obligations.ShortFrameIsRejected : Prop :=
  ∀ (f : List Bit) (s : State), s.busy = false → s.turns = [] → f.length < 16 →
    ∃ m', thenRun 1 (exec (.fdec f) s) = .next { s with
      fstate := .rejected, frame := f, m := m', j := 0, out := [], cause := .frameFormatError, busy := false,
      responses := s.responses ++ [⟨.fdec, .frameFormatError, []⟩] }

/-- R50, R51, R63: the operands FDEC rejects for no reason are exactly HEADER, whole words and TERMINATOR side by side,
with no other field; their lengths are `16 + 7·m`. -/
def Obligations.LegalFramesAreExactlyTheFrameFormat : Prop :=
  ∀ f : List Bit, frameError f = none ↔
    ∃ ws : List Codeword, f = Config.HEADER ++ ws.flatMap bitsOfWord ++ Config.TERMINATOR ∧
      f.length = 16 + 7 * ws.length

/-- R113 (derived in the spec), R112: which command's answer carries which error: HENC and HDEC none; FENC only
MalformedAlignmentError, iff its length is no multiple of 4; FDEC FrameFormatError iff too short or a pattern differs,
and MalformedAlignmentError iff none of those and the body is no multiple of 7. -/
def Obligations.ErrorsAreRaisedExactlyAsTabled : Prop :=
  (∀ d, (responseOf (.henc d)).status = .ok) ∧ (∀ r, (responseOf (.hdec r)).status = .ok) ∧
  (∀ p, (responseOf (.fenc p)).status ≠ .frameFormatError ∧
    ((responseOf (.fenc p)).status = .malformedAlignmentError ↔ p.length % 4 ≠ 0)) ∧
  (∀ f : List Bit,
    let bad := f.length < 16 ∨ slice f 0 8 ≠ Config.HEADER ∨ slice f (f.length - 8) f.length ≠ Config.TERMINATOR
    ((responseOf (.fdec f)).status = .frameFormatError ↔ bad) ∧
    ((responseOf (.fdec f)).status = .malformedAlignmentError ↔ ¬bad ∧ (f.length - 16) % 7 ≠ 0))

/-- R104: FDEC of the same operand in two states, whatever the frame decoder did before and was left holding, ends with
the same response both times, an error or a plaintext; after it the decoder is ready again. -/
def Obligations.RepeatedFdecAnswersTheSame : Prop :=
  ∀ (f : List Bit) (s s' : State), s.busy = false → s.turns = [] → s'.busy = false → s'.turns = [] →
    ∃ (n : Nat) (r : Response) (t t' : State),
      thenRun n (exec (.fdec f) s) = .next t ∧ thenRun n (exec (.fdec f) s') = .next t' ∧
      t.responses = s.responses ++ [r] ∧ t'.responses = s'.responses ++ [r] ∧ r.op = .fdec ∧
      t.busy = false ∧ t'.busy = false

/-- R102 item 1: for all payloads of whole blocks, FDEC of the frame FENC answers is the payload, with status OK. -/
def Obligations.FrameRoundTrip : Prop :=
  ∀ (p : List Bit) (s : State), s.busy = false → s.turns = [] → p.length % 4 = 0 →
    ∃ (frame : List Bit) (t u : State),
      exec (.fenc p) s = .next t ∧ t.responses = s.responses ++ [⟨.fenc, .ok, frame⟩] ∧
      thenRun (p.length / 4 + 2) (exec (.fdec frame) t) = .next u ∧
      u.responses = t.responses ++ [⟨.fdec, .ok, p⟩] ∧ u.fstate = .done

/-- R102 item 2 (derived in the spec): a frame whose words each differ from FENC's in at most one bit, header and
terminator unharmed, still decodes to the payload. -/
def Obligations.OneFlipPerWordIsCorrected : Prop :=
  ∀ (p f : List Bit) (ws : List Codeword) (s : State), s.busy = false → s.turns = [] → p.length % 4 = 0 →
    List.Forall₂ (fun b w => distance (henc b) w ≤ 1) (blocksOf p) ws →
    f = Config.HEADER ++ ws.flatMap bitsOfWord ++ Config.TERMINATOR →
    ∃ t, thenRun (p.length / 4 + 2) (exec (.fdec f) s) = .next t ∧
      t.responses = s.responses ++ [⟨.fdec, .ok, p⟩] ∧ t.fstate = .done

/-- R102 item 3 (derived in the spec): one flipped bit anywhere in the header or the terminator of a legal frame makes
FDEC answer FrameFormatError, however good the body is. -/
def Obligations.FlippedPatternBitIsNeverCorrected : Prop :=
  ∀ (f : List Bit) (i : Nat) (s : State), s.busy = false → s.turns = [] → frameError f = none →
    (i < 8 ∨ f.length - 8 ≤ i ∧ i < f.length) →
    ∃ t, thenRun 1 (exec (.fdec (f.modify i (fun b => !b))) s) = .next t ∧
      t.responses = s.responses ++ [⟨.fdec, .frameFormatError, []⟩] ∧ t.fstate = .rejected

/-- R94's last sentence and R102 item 4 (derived in the spec): replacing one word of a legal frame by any other word
changes the plaintext in that word's block only, and the status stays OK. -/
def Obligations.AWordAffectsOnlyItsOwnBlock : Prop :=
  ∀ (pre post : List Codeword) (v w : Codeword) (s : State), s.busy = false → s.turns = [] →
    ∃ (x y : List Bit) (t u : State),
      thenRun (pre.length + post.length + 3)
        (exec (.fdec (Config.HEADER ++ (pre ++ v :: post).flatMap bitsOfWord ++ Config.TERMINATOR)) s) = .next t ∧
      thenRun (pre.length + post.length + 3)
        (exec (.fdec (Config.HEADER ++ (pre ++ w :: post).flatMap bitsOfWord ++ Config.TERMINATOR)) s) = .next u ∧
      x.length = 4 * pre.length ∧ y.length = 4 * post.length ∧
      t.responses = s.responses ++ [⟨.fdec, .ok, x ++ bitsOfBlock (hdec v) ++ y⟩] ∧
      u.responses = s.responses ++ [⟨.fdec, .ok, x ++ bitsOfBlock (hdec w) ++ y⟩]

/-! ## The machine (spec/10_state.md, spec/20_memory.md, spec/60_exceptions.md, spec/70_reset_and_hazards.md) -/

/-- A step runs the decoded instruction: with a command at the head of the transport and the turn to accept it (named,
or by default with no operation in progress; log 2), the step is that command's meaning on the state without the command
and the turn. -/
def Obligations.StepRunsTheDecodedInstruction : Prop :=
  ∀ (s : State) (c : List Bit) (rest : List (List Bit)) (i : Instr),
    s.waiting = c :: rest → decodeCommand c = .command i →
    (∀ ts, s.turns = .accept :: ts → step s = exec i { s with waiting := rest, turns := ts }) ∧
    (s.turns = [] → s.busy = false → step s = exec i { s with waiting := rest })

/-- D4, U2, U3; log 10: bits that are no command stop the machine by name when they are offered, by a named turn or by
default with no operation in progress (log 2). -/
def Obligations.StepRefusesWhatCannotBePresented : Prop :=
  ∀ (s : State) (c : List Bit) (rest : List (List Bit)) (why : Reject),
    s.waiting = c :: rest → decodeCommand c = .rejected why →
    (∃ ts, s.turns = .accept :: ts) ∨ (s.turns = [] ∧ s.busy = false) →
    step s = .refused (.notPresentable why)

/-- R27 (decision D16): the values the spec gives for reset. FRAME and M, for which it gives none, are left out. -/
def Obligations.ResetStateIsAsTabled : Prop :=
  State.reset.fstate = .scanning ∧ State.reset.fstateOut = 0b00 ∧ State.reset.j = 0 ∧ State.reset.out = [] ∧
  State.reset.cause = .noCause ∧ State.reset.busy = false ∧ State.reset.responses = []

/-- R123, R127 (decision D16): the reset event in any state, also in the middle of an operation: the operation is
abandoned and issues no response, FSTATE, J, OUT and CAUSE take their reset values and no response is pending; the
commands that wait in the transport are still there (log 7). What FRAME and M hold then is left out. -/
def Obligations.ResetEventAbandonsTheOperation : Prop :=
  ∀ (s : State) (ts : List Turn), s.turns = .rst :: ts →
    ∃ t, step s = .next t ∧ t.fstate = .scanning ∧ t.j = 0 ∧ t.out = [] ∧ t.cause = .noCause ∧ t.busy = false ∧
      t.responses = [] ∧ t.waiting = s.waiting ∧ t.turns = ts

/-- R124 (decision D16), log 13: with no command, no operation and no turn, the hardware waits unchanged. -/
def Obligations.IdleHardwareWaits : Prop :=
  ∀ s : State, s.turns = [] → s.busy = false → s.waiting = [] → step s = .next s

/-- R6, log 3: when the host takes a pending response that response is gone, the others keep their order, and nothing
of the hardware changes. -/
def Obligations.TakingAResponseChangesNothingElse : Prop :=
  ∀ (s : State) (ts : List Turn) (before after : List Response) (r : Response),
    s.turns = .take before.length :: ts → s.responses = before ++ r :: after →
    step s = .next { s with responses := before ++ after, turns := ts }

/-- R22: from a state that meets the invariant FSTATE moves only along the table: with no reset, SCANNING to DECODING or
REJECTED, DECODING to itself or DONE, and DONE or REJECTED to SCANNING by the start of an FDEC operation, the waiting
command just accepted; a reset leads to SCANNING from any value (R123, log 20). -/
def Obligations.FstateMovesOnlyAsTabled : Prop :=
  ∀ s t : State, Invariant s → step s = .next t → s.fstate ≠ t.fstate →
    (s.fstate = .scanning ∧ t.fstate = .decoding) ∨ (s.fstate = .scanning ∧ t.fstate = .rejected) ∨
    (s.fstate = .decoding ∧ t.fstate = .done) ∨
    (t.fstate = .scanning ∧ (∃ ts, s.turns = .rst :: ts)) ∨
    ((s.fstate = .done ∨ s.fstate = .rejected) ∧ t.fstate = .scanning ∧ s.busy = false ∧ t.busy = true ∧
      s.waiting = (true :: true :: t.frame) :: t.waiting)

/-- The invariant holds after reset. -/
def Obligations.InvariantHoldsAtReset : Prop := Invariant State.reset

/-- R22, R23, R96 to R100, R110, R33: every step keeps the invariant: what J, OUT, CAUSE and the operation in progress
are in each value of FSTATE, what FRAME and M are in DECODING, and that every pending response is one its unit can issue.
What the invariant also says of FRAME and M in DONE and of FRAME in REJECTED is the model's choice, since they may hold any
value there (U9; log 23). -/
def Obligations.StepKeepsTheInvariant : Prop :=
  ∀ s t : State, Invariant s → step s = .next t → Invariant t

/-- R31, R134, R136: from a state that meets the invariant, with only commands presented, the machine never stops: every
step has a next state, and only commands are left waiting in it. -/
def Obligations.PresentedCommandsNeverStopTheMachine : Prop :=
  ∀ s : State, Invariant s → Presentable s → ∃ t, step s = .next t ∧ Presentable t

/-- R134, R101 (log 2, log 14): an operation in progress always ends: undisturbed, after exactly the remaining steps
the machine has issued the response of `FDEC FRAME` and the frame decoder is idle; each single step brings the end one step
nearer. -/
def Obligations.OperationInProgressAlwaysEnds : Prop :=
  ∀ s : State, Invariant s → s.turns = [] → s.busy = true →
    (∃ t, runSteps (remainingSteps s) s = .next t ∧ t.busy = false ∧
      t.responses = s.responses ++ [responseOf (.fdec s.frame)] ∧ t.waiting = s.waiting) ∧
    (∃ t, step s = .next t ∧ remainingSteps t + 1 = remainingSteps s)

/-- R42 items 1 and 3, R39, R30: where a step issues a response, it is the response of one command, by its `op` and
`arg` alone: of the waiting HENC, HDEC or FENC command just accepted, or of the FDEC operation that ends in this step,
which is then in DONE exactly when the status is OK and in REJECTED otherwise. -/
def Obligations.IssuedResponsesDependOnTheCommandOnly : Prop :=
  ∀ s t : State, Invariant s → step s = .next t →
    t.responses = s.responses ∨
    (∃ k ts, s.turns = .take k :: ts ∧ t.responses = s.responses.eraseIdx k) ∨
    (∃ ts, s.turns = .rst :: ts ∧ t.responses = []) ∨
    (∃ i, i.op ≠ .fdec ∧ s.waiting = encode i :: t.waiting ∧ t.responses = s.responses ++ [responseOf i]) ∨
    (s.busy = true ∧ t.busy = false ∧ t.responses = s.responses ++ [responseOf (.fdec s.frame)] ∧
      (t.fstate = .done ↔ (responseOf (.fdec s.frame)).status = .ok) ∧
      (t.fstate = .rejected ↔ (responseOf (.fdec s.frame)).status ≠ .ok))

/-- R42, R129, R134: any list of commands offered to an idle machine is answered to the last one, each with the response
it would have alone, whatever ran before. That the responses stand in the order of the commands is the model's choice,
where R42 item 3 lets them come in any order: the default turns of log 2, the transport's order of log 8 and the list of
log 3. -/
def Obligations.EveryOfferedCommandIsAnswered : Prop :=
  ∀ (is : List Instr) (s : State), s.busy = false → s.turns = [] → s.waiting = is.map encode →
    ∃ n t, runSteps n s = .next t ∧ t.waiting = [] ∧ t.busy = false ∧
      t.responses = s.responses ++ is.map responseOf

/-- R129 (decision D17), U8: no command is dropped, merged or answered twice. Unless the host takes a response or resets,
a step does one of four things: it leaves the waiting commands, the operation in progress and the responses as they are;
it takes the oldest waiting HENC, HDEC or FENC command and adds its one response; it takes the oldest waiting FDEC command
into the idle frame decoder, in progress on that operand; or the operation in progress ends with its one response. Each
keeps the number of commands waiting, in progress and answered together. -/
def Obligations.CommandsAreNeverDropped : Prop :=
  ∀ s t : State, step s = .next t → (∀ k ts, s.turns ≠ .take k :: ts) → (∀ ts, s.turns ≠ .rst :: ts) →
    ((t.waiting = s.waiting ∧ t.busy = s.busy ∧ t.frame = s.frame ∧ t.responses = s.responses) ∨
      (∃ i : Instr, i.op ≠ .fdec ∧ s.waiting = encode i :: t.waiting ∧ t.busy = s.busy ∧ t.frame = s.frame ∧
        t.responses = s.responses ++ [responseOf i]) ∨
      (∃ f : List Bit, s.waiting = encode (.fdec f) :: t.waiting ∧ s.busy = false ∧ t.busy = true ∧ t.frame = f ∧
        t.responses = s.responses) ∨
      (∃ r : Response, s.busy = true ∧ t.busy = false ∧ t.waiting = s.waiting ∧
        t.responses = s.responses ++ [r] ∧ r.op = .fdec ∧ (Invariant s → r = responseOf (.fdec s.frame)))) ∧
    t.waiting.length + t.busy.toNat + t.responses.length = s.waiting.length + s.busy.toNat + s.responses.length

/-- R42 item 2, R129: a command of another unit and a step of the frame decoder can be done in either order: the states
reached differ at most in the order of the responses. -/
def Obligations.OtherUnitsCommuteWithTheFrameDecoder : Prop :=
  ∀ (i : Instr) (s t : State), i.op ≠ .fdec → workStep s = .next t →
    ∃ u v v', exec i s = .next u ∧ workStep u = .next v ∧ exec i t = .next v' ∧
      v'.responses.Perm v.responses ∧ { v' with responses := v.responses } = v

/-- R26, R27, U9: FRAME and M are read only by the operation that set them. Two states that differ in nothing else, with
no operation in progress, or in SCANNING with the same FRAME, move to states that again differ in nothing a later step
reads. -/
def Obligations.StaleFrameAndCountAreNeverRead : Prop :=
  let Alike := fun s s' : State => { s' with frame := s.frame, m := s.m } = s ∧
    (s.busy = false ∨ (s.fstate = .scanning ∧ s'.frame = s.frame) ∨ s' = s)
  ∀ s s' t : State, Alike s s' → step s = .next t → ∃ t', step s' = .next t' ∧ Alike t t'

/-- R36 (decision D5), U6, log 11: an instance bounded by `b` refuses by name, before the operation starts, exactly an
operand of FENC or FDEC above `b` bits that is offered to its unit, by a named turn or by default with no operation in
progress (log 2); every other step, whichever agent moves and whatever waits, is the very step of the unbounded machine. -/
def Obligations.BoundedInstanceRefusesOnlyLongOperands : Prop :=
  ∀ (b : Nat) (s : State),
    let offersTooLong := ((∃ ts, s.turns = .accept :: ts) ∨ (s.turns = [] ∧ s.busy = false)) ∧
      ∃ c rest i, s.waiting = c :: rest ∧ decodeCommand c = .command i ∧ (i.op = .fenc ∨ i.op = .fdec) ∧
        b < i.arg.length
    (offersTooLong → stepAt (some b) s = .refused .operandTooLong) ∧
    (¬offersTooLong → stepAt (some b) s = step s)

/-- R121: with several instances side by side, a step of one is that instance's own step, and every other instance is as
it was. -/
def Obligations.InstancesAreIndependent : Prop :=
  ∀ (k : Nat) (bank : List State) (s : State), bank[k]? = some s →
    (∀ t, step s = .next t → ∃ bank', stepInstance k bank = .next bank' ∧ bank'.length = bank.length ∧
      bank'[k]? = some t ∧ ∀ n, n ≠ k → bank'[n]? = bank[n]?) ∧
    (∀ r, step s = .refused r → stepInstance k bank = .refused r) ∧
    (∀ r, step s = .fault r → stepInstance k bank = .fault r)
end

