-- ==== Sys2Proof/Laws/Cuts.lean ====
section
/-! SUPPORT. How cutting a sequence into blocks and words fits together with reading by index
(spec/30_encoding.md R52, R53; spec/41_frame_protocol.md R84, R94). -/

namespace Sys2Proof.Machine

/-! ## Slices -/

theorem slice_length (s : List Bit) (a b : Nat) : (slice s a b).length = min (b - a) (s.length - a) := by
  simp [slice]

/-- A slice past the first part lies in the second. -/
theorem slice_append_right (s t : List Bit) (a b : Nat) :
    slice (s ++ t) (s.length + a) (s.length + b) = slice t a b := by
  rw [slice, slice, show s.length + b - (s.length + a) = b - a by omega, ← List.drop_drop, List.drop_left]

/-- A slice within the first part. -/
theorem slice_append_left {s : List Bit} (t : List Bit) {a b : Nat} (h : b ≤ s.length) :
    slice (s ++ t) a b = slice s a b := by
  rw [slice, slice, List.drop_append]
  by_cases ha : a ≤ s.length
  · rw [List.take_append_of_le_length (by simp; omega)]
  · simp [show b - a = 0 by omega]

/-- The whole sequence is its own slice. -/
theorem slice_full (s : List Bit) : slice s 0 s.length = s := by
  simp [slice]

/-- The first and the last part as slices. -/
theorem slice_prefix (s t : List Bit) : slice (s ++ t) 0 s.length = s := by
  rw [slice_append_left t (Nat.le_refl _), slice_full]

theorem slice_suffix (s t : List Bit) : slice (s ++ t) s.length (s.length + t.length) = t := by
  simpa [slice_full] using slice_append_right s t 0 t.length

/-! ## Groups of fixed width -/

@[simp] theorem bitsOfBlock_length (b : DataBlock) : (bitsOfBlock b).length = 4 := rfl
@[simp] theorem bitsOfWord_length (w : Codeword) : (bitsOfWord w).length = 7 := rfl
@[simp] theorem blockOfBits_bitsOfBlock (b : DataBlock) : blockOfBits (bitsOfBlock b) = some b := rfl
@[simp] theorem wordOfBits_bitsOfWord (w : Codeword) : wordOfBits (bitsOfWord w) = some w := rfl

/-- Exactly the sequences of 4 bits are data blocks. -/
theorem blockOfBits_eq_some {s : List Bit} {b : DataBlock} : blockOfBits s = some b ↔ s = bitsOfBlock b := by
  constructor
  · intro h
    unfold blockOfBits at h
    split at h <;> simp_all [bitsOfBlock]
    subst h
    simp
  · rintro rfl
    rfl

/-- Exactly the sequences of 7 bits are words. -/
theorem wordOfBits_eq_some {s : List Bit} {w : Codeword} : wordOfBits s = some w ↔ s = bitsOfWord w := by
  constructor
  · intro h
    unfold wordOfBits at h
    split at h <;> simp_all [bitsOfWord]
    subst h
    simp
  · rintro rfl
    rfl

theorem flatMap_bitsOfBlock_length (bs : List DataBlock) : (bs.flatMap bitsOfBlock).length = 4 * bs.length := by
  induction bs with
  | nil => rfl
  | cons b bs ih => rw [List.flatMap_cons, List.length_append, ih, bitsOfBlock_length, List.length_cons]; omega

theorem flatMap_bitsOfWord_length (ws : List Codeword) : (ws.flatMap bitsOfWord).length = 7 * ws.length := by
  induction ws with
  | nil => rfl
  | cons w ws ih => rw [List.flatMap_cons, List.length_append, ih, bitsOfWord_length, List.length_cons]; omega

/-- Blocks laid out are cut back into the same blocks. -/
@[simp] theorem blocksOf_flatMap (bs : List DataBlock) : blocksOf (bs.flatMap bitsOfBlock) = bs := by
  induction bs with
  | nil => rfl
  | cons b bs ih => simp [bitsOfBlock, blocksOf, ih]

/-- Words laid out are cut back into the same words. -/
@[simp] theorem wordsOf_flatMap (ws : List Codeword) : wordsOf (ws.flatMap bitsOfWord) = ws := by
  induction ws with
  | nil => rfl
  | cons w ws ih => simp [bitsOfWord, wordsOf, ih]

/-- A payload of whole blocks is its blocks laid out. -/
theorem flatMap_blocksOf {p : List Bit} (h : p.length % 4 = 0) : (blocksOf p).flatMap bitsOfBlock = p := by
  induction p using blocksOf.induct with
  | case1 a b c d rest ih =>
    simp only [List.length_cons] at h
    simp [blocksOf, bitsOfBlock, ih (by omega)]
  | case2 p hp =>
    match p, hp, h with
    | [], _, _ => rfl
    | [_], _, h | [_, _], _, h | [_, _, _], _, h => simp at h
    | a :: b :: c :: d :: rest, hp, _ => exact absurd rfl (hp a b c d rest)

/-- An encoded payload of whole words is its words laid out. -/
theorem flatMap_wordsOf {s : List Bit} (h : s.length % 7 = 0) : (wordsOf s).flatMap bitsOfWord = s := by
  induction s using wordsOf.induct with
  | case1 p q a r b c d rest ih =>
    simp only [List.length_cons] at h
    simp [wordsOf, bitsOfWord, ih (by omega)]
  | case2 s hs =>
    match s, hs, h with
    | [], _, _ => rfl
    | [_], _, h | [_, _], _, h | [_, _, _], _, h | [_, _, _, _], _, h | [_, _, _, _, _], _, h
    | [_, _, _, _, _, _], _, h => simp at h
    | p :: q :: a :: r :: b :: c :: d :: rest, hs, _ => exact absurd rfl (hs p q a r b c d rest)

theorem blocksOf_length {p : List Bit} (h : p.length % 4 = 0) : (blocksOf p).length = p.length / 4 := by
  have := congrArg List.length (flatMap_blocksOf h)
  rw [flatMap_bitsOfBlock_length] at this
  omega

theorem wordsOf_length {s : List Bit} (h : s.length % 7 = 0) : (wordsOf s).length = s.length / 7 := by
  have := congrArg List.length (flatMap_wordsOf h)
  rw [flatMap_bitsOfWord_length] at this
  omega

/-- Laid out words by index: word `j` stands at `7·j .. 7·j+6`. -/
theorem slice_flatMap_bitsOfWord {ws : List Codeword} {j : Nat} {w : Codeword} (h : ws[j]? = some w) :
    slice (ws.flatMap bitsOfWord) (7 * j) (7 * j + 7) = bitsOfWord w := by
  induction ws generalizing j with
  | nil => simp at h
  | cons v ws ih =>
    cases j with
    | zero =>
      simp at h
      subst h
      exact slice_prefix (bitsOfWord v) (ws.flatMap bitsOfWord)
    | succ j =>
      have := slice_append_right (bitsOfWord v) (ws.flatMap bitsOfWord) (7 * j) (7 * j + 7)
      simp only [bitsOfWord_length] at this
      rw [List.flatMap_cons, show 7 * (j + 1) = 7 + 7 * j by omega, show 7 + 7 * j + 7 = 7 + (7 * j + 7) by omega, this]
      exact ih (by simpa using h)

/-- Laid out blocks by index: block `i` stands at `4·i .. 4·i+3`. -/
theorem slice_flatMap_bitsOfBlock {bs : List DataBlock} {i : Nat} {b : DataBlock} (h : bs[i]? = some b) :
    slice (bs.flatMap bitsOfBlock) (4 * i) (4 * i + 4) = bitsOfBlock b := by
  induction bs generalizing i with
  | nil => simp at h
  | cons v bs ih =>
    cases i with
    | zero =>
      simp at h
      subst h
      exact slice_prefix (bitsOfBlock v) (bs.flatMap bitsOfBlock)
    | succ i =>
      have := slice_append_right (bitsOfBlock v) (bs.flatMap bitsOfBlock) (4 * i) (4 * i + 4)
      simp only [bitsOfBlock_length] at this
      rw [List.flatMap_cons, show 4 * (i + 1) = 4 + 4 * i by omega, show 4 + 4 * i + 4 = 4 + (4 * i + 4) by omega, this]
      exact ih (by simpa using h)

/-! ## Encoded and decoded sequences -/

theorem encodeBlocks_eq (bs : List DataBlock) : encodeBlocks bs = (bs.map henc).flatMap bitsOfWord := by
  simp [encodeBlocks, List.flatMap_map]

theorem decodeWords_eq (ws : List Codeword) : decodeWords ws = (ws.map hdec).flatMap bitsOfBlock := by
  simp [decodeWords, List.flatMap_map]

@[simp] theorem encodeBlocks_length (bs : List DataBlock) : (encodeBlocks bs).length = 7 * bs.length := by
  rw [encodeBlocks_eq, flatMap_bitsOfWord_length, List.length_map]

@[simp] theorem decodeWords_length (ws : List Codeword) : (decodeWords ws).length = 4 * ws.length := by
  rw [decodeWords_eq, flatMap_bitsOfBlock_length, List.length_map]

@[simp] theorem decodeWords_nil : decodeWords [] = [] := rfl

theorem decodeWords_append (vs ws : List Codeword) : decodeWords (vs ++ ws) = decodeWords vs ++ decodeWords ws := by
  simp [decodeWords]

/-- One more word decoded (R98): OUT grows by that word's block. -/
theorem decodeWords_take_succ {ws : List Codeword} {j : Nat} {w : Codeword} (h : ws[j]? = some w) :
    decodeWords (ws.take (j + 1)) = decodeWords (ws.take j) ++ bitsOfBlock (hdec w) := by
  rw [List.take_add_one, h, decodeWords_append]
  simp [decodeWords]

/-! ## Frames -/

/-- The three parts of a sequence of at least 16 bits (R50, R53). -/
theorem frame_parts {f : List Bit} (h : 16 ≤ f.length) :
    f = slice f 0 8 ++ bodyOf f ++ slice f (f.length - 8) f.length := by
  have h1 : f.take 8 ++ (f.drop 8).take (f.length - 8 - 8) = f.take (f.length - 8) := by
    rw [← List.take_add]
    congr 1
    omega
  simp only [slice, bodyOf, List.drop_zero, Nat.sub_zero]
  rw [h1, List.take_of_length_le (l := f.drop (f.length - 8)) (by simp), List.take_append_drop]

/-- What passing every test of R63 means. -/
theorem frameError_eq_none {f : List Bit} : frameError f = none ↔
    16 ≤ f.length ∧ slice f 0 8 = Config.HEADER ∧ slice f (f.length - 8) f.length = Config.TERMINATOR ∧
      (f.length - 16) % 7 = 0 := by
  unfold frameError hasHeader hasTerminator
  split
  · simp; omega
  · split
    · simp_all
      tauto
    · split <;> simp_all

/-- The body of a legal frame is whole words, as many as `M` (R97). -/
theorem bodyOf_length (f : List Bit) : (bodyOf f).length = f.length - 16 := by
  simp [bodyOf, slice]
  omega

theorem wordsOf_bodyOf_length {f : List Bit} (h : frameError f = none) :
    (wordsOf (bodyOf f)).length = wordCount f := by
  rw [wordsOf_length (by rw [bodyOf_length]; exact (frameError_eq_none.1 h).2.2.2), bodyOf_length, wordCount]

/-- A legal frame is HEADER, its words, TERMINATOR (R50). -/
theorem legal_frame_eq {f : List Bit} (h : frameError f = none) :
    f = Config.HEADER ++ (wordsOf (bodyOf f)).flatMap bitsOfWord ++ Config.TERMINATOR := by
  obtain ⟨hl, hh, ht, h7⟩ := frameError_eq_none.1 h
  rw [flatMap_wordsOf (by rw [bodyOf_length]; exact h7)]
  conv_lhs => rw [frame_parts hl, hh, ht]

section Built

variable (ws : List Codeword)

theorem built_frame_length :
    (Config.HEADER ++ ws.flatMap bitsOfWord ++ Config.TERMINATOR).length = 16 + 7 * ws.length := by
  rw [List.length_append, List.length_append, flatMap_bitsOfWord_length, show Config.HEADER.length = 8 from rfl,
    show Config.TERMINATOR.length = 8 from rfl]
  omega

theorem built_frame_header : slice (Config.HEADER ++ ws.flatMap bitsOfWord ++ Config.TERMINATOR) 0 8 = Config.HEADER := by
  simp [slice, Config.HEADER]

theorem built_frame_terminator :
    slice (Config.HEADER ++ ws.flatMap bitsOfWord ++ Config.TERMINATOR)
      ((Config.HEADER ++ ws.flatMap bitsOfWord ++ Config.TERMINATOR).length - 8)
      (Config.HEADER ++ ws.flatMap bitsOfWord ++ Config.TERMINATOR).length = Config.TERMINATOR := by
  have := slice_suffix (Config.HEADER ++ ws.flatMap bitsOfWord) Config.TERMINATOR
  rw [List.length_append, flatMap_bitsOfWord_length, show Config.HEADER.length = 8 from rfl,
    show Config.TERMINATOR.length = 8 from rfl] at this
  rw [built_frame_length, show 16 + 7 * ws.length - 8 = 8 + 7 * ws.length by omega,
    show 16 + 7 * ws.length = 8 + 7 * ws.length + 8 by omega, this]

theorem built_frame_body : bodyOf (Config.HEADER ++ ws.flatMap bitsOfWord ++ Config.TERMINATOR) = ws.flatMap bitsOfWord := by
  rw [bodyOf, built_frame_length, List.append_assoc]
  have h := slice_append_right Config.HEADER (ws.flatMap bitsOfWord ++ Config.TERMINATOR) 0 (7 * ws.length)
  have h2 := slice_append_left (s := ws.flatMap bitsOfWord) Config.TERMINATOR (a := 0) (b := 7 * ws.length)
    (by rw [flatMap_bitsOfWord_length])
  have h3 := slice_full (ws.flatMap bitsOfWord)
  rw [flatMap_bitsOfWord_length] at h3
  rw [show (8 : Nat) = Config.HEADER.length + 0 from rfl,
    show 16 + 7 * ws.length - (Config.HEADER.length + 0) = Config.HEADER.length + 7 * ws.length by
      simp [Config.HEADER]; omega, h, h2, h3]

/-- HEADER, any words and TERMINATOR are a legal operand of FDEC (R63, R103). -/
theorem built_frame_legal : frameError (Config.HEADER ++ ws.flatMap bitsOfWord ++ Config.TERMINATOR) = none := by
  refine frameError_eq_none.2 ⟨?_, built_frame_header ws, built_frame_terminator ws, ?_⟩ <;>
    rw [built_frame_length] <;> omega

theorem built_frame_words : wordsOf (bodyOf (Config.HEADER ++ ws.flatMap bitsOfWord ++ Config.TERMINATOR)) = ws := by
  rw [built_frame_body, wordsOf_flatMap]

end Built

/-- Reading a word of a legal frame by index gives that word of its body (R53). -/
theorem slice_legal_frame {f : List Bit} (h : frameError f = none) {j : Nat} {w : Codeword}
    (hw : (wordsOf (bodyOf f))[j]? = some w) : slice f (8 + 7 * j) (15 + 7 * j) = bitsOfWord w := by
  have hj : j < (wordsOf (bodyOf f)).length := (List.getElem?_eq_some_iff.1 hw).1
  rw [legal_frame_eq h, List.append_assoc]
  have h1 := slice_append_right Config.HEADER
    ((wordsOf (bodyOf f)).flatMap bitsOfWord ++ Config.TERMINATOR) (7 * j) (7 * j + 7)
  simp only [show Config.HEADER.length = 8 from rfl] at h1
  rw [show 15 + 7 * j = 8 + (7 * j + 7) by omega, h1, slice_append_left _ (by rw [flatMap_bitsOfWord_length]; omega),
    slice_flatMap_bitsOfWord hw]

theorem readWord_legal_frame {f : List Bit} (h : frameError f = none) {j : Nat} {w : Codeword}
    (hw : (wordsOf (bodyOf f))[j]? = some w) : readWord f j = some w := by
  rw [readWord, slice_legal_frame h hw, wordOfBits_bitsOfWord]

end Sys2Proof.Machine
end

