-- ==== Sys2Proof/Laws/PerInstr.lean ====
section
/-! SUPPORT. What holds of each instruction as syntax, one lemma per constructor. -/

/-- The encoding of every instruction is the bits of a command (spec/30_encoding.md R59, spec/20_memory.md R33). -/
def Sys2Proof.Laws.EncodePresentable.Statement (i : Sys2Proof.Instr) : Prop :=
  Sys2Proof.commandWf (Sys2Proof.encode i) = true

theorem Sys2Proof.Laws.EncodePresentable.henc (d : Sys2Proof.DataBlock) :
    Sys2Proof.Laws.EncodePresentable.Statement (.henc d) := rfl

theorem Sys2Proof.Laws.EncodePresentable.hdec (r : Sys2Proof.Codeword) :
    Sys2Proof.Laws.EncodePresentable.Statement (.hdec r) := rfl

theorem Sys2Proof.Laws.EncodePresentable.fenc (p : List Sys2Proof.Bit) :
    Sys2Proof.Laws.EncodePresentable.Statement (.fenc p) := rfl

theorem Sys2Proof.Laws.EncodePresentable.fdec (f : List Sys2Proof.Bit) :
    Sys2Proof.Laws.EncodePresentable.Statement (.fdec f) := rfl
end

