-- ==== Sys2Proof/Laws/State.lean ====
section
/-! SUPPORT. What each update of the state leaves in each field, one lemma per field and update. -/

namespace Sys2Proof.Machine

@[simp] theorem issue_fstate (r : Response) (s : State) : (issue r s).fstate = s.fstate := rfl
@[simp] theorem issue_frame (r : Response) (s : State) : (issue r s).frame = s.frame := rfl
@[simp] theorem issue_m (r : Response) (s : State) : (issue r s).m = s.m := rfl
@[simp] theorem issue_j (r : Response) (s : State) : (issue r s).j = s.j := rfl
@[simp] theorem issue_out (r : Response) (s : State) : (issue r s).out = s.out := rfl
@[simp] theorem issue_cause (r : Response) (s : State) : (issue r s).cause = s.cause := rfl
@[simp] theorem issue_busy (r : Response) (s : State) : (issue r s).busy = s.busy := rfl
@[simp] theorem issue_responses (r : Response) (s : State) : (issue r s).responses = s.responses ++ [r] := rfl
@[simp] theorem issue_waiting (r : Response) (s : State) : (issue r s).waiting = s.waiting := rfl
@[simp] theorem issue_turns (r : Response) (s : State) : (issue r s).turns = s.turns := rfl

@[simp] theorem answerOk_fstate (op : Op) (res : List Bit) (s : State) : (answerOk op res s).fstate = s.fstate := rfl
@[simp] theorem answerOk_frame (op : Op) (res : List Bit) (s : State) : (answerOk op res s).frame = s.frame := rfl
@[simp] theorem answerOk_m (op : Op) (res : List Bit) (s : State) : (answerOk op res s).m = s.m := rfl
@[simp] theorem answerOk_j (op : Op) (res : List Bit) (s : State) : (answerOk op res s).j = s.j := rfl
@[simp] theorem answerOk_out (op : Op) (res : List Bit) (s : State) : (answerOk op res s).out = s.out := rfl
@[simp] theorem answerOk_cause (op : Op) (res : List Bit) (s : State) : (answerOk op res s).cause = s.cause := rfl
@[simp] theorem answerOk_busy (op : Op) (res : List Bit) (s : State) : (answerOk op res s).busy = s.busy := rfl
@[simp] theorem answerOk_responses (op : Op) (res : List Bit) (s : State) : (answerOk op res s).responses = s.responses ++ [⟨op, .ok, res⟩] := rfl
@[simp] theorem answerOk_waiting (op : Op) (res : List Bit) (s : State) : (answerOk op res s).waiting = s.waiting := rfl
@[simp] theorem answerOk_turns (op : Op) (res : List Bit) (s : State) : (answerOk op res s).turns = s.turns := rfl

@[simp] theorem raiseError_fenc_fstate (e : ErrorKind) (s : State) : (raiseError .fenc e s).fstate = s.fstate := rfl
@[simp] theorem raiseError_fenc_frame (e : ErrorKind) (s : State) : (raiseError .fenc e s).frame = s.frame := rfl
@[simp] theorem raiseError_fenc_m (e : ErrorKind) (s : State) : (raiseError .fenc e s).m = s.m := rfl
@[simp] theorem raiseError_fenc_j (e : ErrorKind) (s : State) : (raiseError .fenc e s).j = s.j := rfl
@[simp] theorem raiseError_fenc_out (e : ErrorKind) (s : State) : (raiseError .fenc e s).out = s.out := rfl
@[simp] theorem raiseError_fenc_cause (e : ErrorKind) (s : State) : (raiseError .fenc e s).cause = s.cause := rfl
@[simp] theorem raiseError_fenc_busy (e : ErrorKind) (s : State) : (raiseError .fenc e s).busy = s.busy := rfl
@[simp] theorem raiseError_fenc_responses (e : ErrorKind) (s : State) : (raiseError .fenc e s).responses = s.responses ++ [⟨.fenc, statusOf e, []⟩] := rfl
@[simp] theorem raiseError_fenc_waiting (e : ErrorKind) (s : State) : (raiseError .fenc e s).waiting = s.waiting := rfl
@[simp] theorem raiseError_fenc_turns (e : ErrorKind) (s : State) : (raiseError .fenc e s).turns = s.turns := rfl

@[simp] theorem raiseError_fdec_fstate (e : ErrorKind) (s : State) : (raiseError .fdec e s).fstate = .rejected := rfl
@[simp] theorem raiseError_fdec_frame (e : ErrorKind) (s : State) : (raiseError .fdec e s).frame = s.frame := rfl
@[simp] theorem raiseError_fdec_m (e : ErrorKind) (s : State) : (raiseError .fdec e s).m = s.m := rfl
@[simp] theorem raiseError_fdec_j (e : ErrorKind) (s : State) : (raiseError .fdec e s).j = s.j := rfl
@[simp] theorem raiseError_fdec_out (e : ErrorKind) (s : State) : (raiseError .fdec e s).out = s.out := rfl
@[simp] theorem raiseError_fdec_cause (e : ErrorKind) (s : State) : (raiseError .fdec e s).cause = causeOf e := rfl
@[simp] theorem raiseError_fdec_busy (e : ErrorKind) (s : State) : (raiseError .fdec e s).busy = false := rfl
@[simp] theorem raiseError_fdec_responses (e : ErrorKind) (s : State) : (raiseError .fdec e s).responses = s.responses ++ [⟨.fdec, statusOf e, []⟩] := rfl
@[simp] theorem raiseError_fdec_waiting (e : ErrorKind) (s : State) : (raiseError .fdec e s).waiting = s.waiting := rfl
@[simp] theorem raiseError_fdec_turns (e : ErrorKind) (s : State) : (raiseError .fdec e s).turns = s.turns := rfl

@[simp] theorem startFrameDecoder_fstate (f : List Bit) (s : State) : (startFrameDecoder f s).fstate = .scanning := rfl
@[simp] theorem startFrameDecoder_frame (f : List Bit) (s : State) : (startFrameDecoder f s).frame = f := rfl
@[simp] theorem startFrameDecoder_m (f : List Bit) (s : State) : (startFrameDecoder f s).m = s.m := rfl
@[simp] theorem startFrameDecoder_j (f : List Bit) (s : State) : (startFrameDecoder f s).j = 0 := rfl
@[simp] theorem startFrameDecoder_out (f : List Bit) (s : State) : (startFrameDecoder f s).out = [] := rfl
@[simp] theorem startFrameDecoder_cause (f : List Bit) (s : State) : (startFrameDecoder f s).cause = .noCause := rfl
@[simp] theorem startFrameDecoder_busy (f : List Bit) (s : State) : (startFrameDecoder f s).busy = true := rfl
@[simp] theorem startFrameDecoder_responses (f : List Bit) (s : State) : (startFrameDecoder f s).responses = s.responses := rfl
@[simp] theorem startFrameDecoder_waiting (f : List Bit) (s : State) : (startFrameDecoder f s).waiting = s.waiting := rfl
@[simp] theorem startFrameDecoder_turns (f : List Bit) (s : State) : (startFrameDecoder f s).turns = s.turns := rfl

@[simp] theorem finishFrameDecoder_fstate (s : State) : (finishFrameDecoder s).fstate = .done := rfl
@[simp] theorem finishFrameDecoder_frame (s : State) : (finishFrameDecoder s).frame = s.frame := rfl
@[simp] theorem finishFrameDecoder_m (s : State) : (finishFrameDecoder s).m = s.m := rfl
@[simp] theorem finishFrameDecoder_j (s : State) : (finishFrameDecoder s).j = s.j := rfl
@[simp] theorem finishFrameDecoder_out (s : State) : (finishFrameDecoder s).out = s.out := rfl
@[simp] theorem finishFrameDecoder_cause (s : State) : (finishFrameDecoder s).cause = s.cause := rfl
@[simp] theorem finishFrameDecoder_busy (s : State) : (finishFrameDecoder s).busy = false := rfl
@[simp] theorem finishFrameDecoder_responses (s : State) : (finishFrameDecoder s).responses = s.responses ++ [⟨.fdec, .ok, s.out⟩] := rfl
@[simp] theorem finishFrameDecoder_waiting (s : State) : (finishFrameDecoder s).waiting = s.waiting := rfl
@[simp] theorem finishFrameDecoder_turns (s : State) : (finishFrameDecoder s).turns = s.turns := rfl

@[simp] theorem resetEvent_fstate (s : State) : (resetEvent s).fstate = .scanning := rfl
@[simp] theorem resetEvent_frame (s : State) : (resetEvent s).frame = [] := rfl
@[simp] theorem resetEvent_m (s : State) : (resetEvent s).m = 0 := rfl
@[simp] theorem resetEvent_j (s : State) : (resetEvent s).j = 0 := rfl
@[simp] theorem resetEvent_out (s : State) : (resetEvent s).out = [] := rfl
@[simp] theorem resetEvent_cause (s : State) : (resetEvent s).cause = .noCause := rfl
@[simp] theorem resetEvent_busy (s : State) : (resetEvent s).busy = false := rfl
@[simp] theorem resetEvent_responses (s : State) : (resetEvent s).responses = [] := rfl
@[simp] theorem resetEvent_waiting (s : State) : (resetEvent s).waiting = s.waiting := rfl
@[simp] theorem resetEvent_turns (s : State) : (resetEvent s).turns = s.turns := rfl

@[simp] theorem offer_fstate (c : List Bit) (s : State) : (offer c s).fstate = s.fstate := rfl
@[simp] theorem offer_frame (c : List Bit) (s : State) : (offer c s).frame = s.frame := rfl
@[simp] theorem offer_m (c : List Bit) (s : State) : (offer c s).m = s.m := rfl
@[simp] theorem offer_j (c : List Bit) (s : State) : (offer c s).j = s.j := rfl
@[simp] theorem offer_out (c : List Bit) (s : State) : (offer c s).out = s.out := rfl
@[simp] theorem offer_cause (c : List Bit) (s : State) : (offer c s).cause = s.cause := rfl
@[simp] theorem offer_busy (c : List Bit) (s : State) : (offer c s).busy = s.busy := rfl
@[simp] theorem offer_responses (c : List Bit) (s : State) : (offer c s).responses = s.responses := rfl
@[simp] theorem offer_waiting (c : List Bit) (s : State) : (offer c s).waiting = s.waiting ++ [c] := rfl
@[simp] theorem offer_turns (c : List Bit) (s : State) : (offer c s).turns = s.turns := rfl

@[simp] theorem keepWaiting_fstate (i : Instr) (s : State) : (keepWaiting i s).fstate = s.fstate := rfl
@[simp] theorem keepWaiting_frame (i : Instr) (s : State) : (keepWaiting i s).frame = s.frame := rfl
@[simp] theorem keepWaiting_m (i : Instr) (s : State) : (keepWaiting i s).m = s.m := rfl
@[simp] theorem keepWaiting_j (i : Instr) (s : State) : (keepWaiting i s).j = s.j := rfl
@[simp] theorem keepWaiting_out (i : Instr) (s : State) : (keepWaiting i s).out = s.out := rfl
@[simp] theorem keepWaiting_cause (i : Instr) (s : State) : (keepWaiting i s).cause = s.cause := rfl
@[simp] theorem keepWaiting_busy (i : Instr) (s : State) : (keepWaiting i s).busy = s.busy := rfl
@[simp] theorem keepWaiting_responses (i : Instr) (s : State) : (keepWaiting i s).responses = s.responses := rfl
@[simp] theorem keepWaiting_waiting (i : Instr) (s : State) : (keepWaiting i s).waiting = encode i :: s.waiting := rfl
@[simp] theorem keepWaiting_turns (i : Instr) (s : State) : (keepWaiting i s).turns = s.turns := rfl

@[simp] theorem takeResponse_fstate (k : Nat) (s : State) : (takeResponse k s).fstate = s.fstate := rfl
@[simp] theorem takeResponse_frame (k : Nat) (s : State) : (takeResponse k s).frame = s.frame := rfl
@[simp] theorem takeResponse_m (k : Nat) (s : State) : (takeResponse k s).m = s.m := rfl
@[simp] theorem takeResponse_j (k : Nat) (s : State) : (takeResponse k s).j = s.j := rfl
@[simp] theorem takeResponse_out (k : Nat) (s : State) : (takeResponse k s).out = s.out := rfl
@[simp] theorem takeResponse_cause (k : Nat) (s : State) : (takeResponse k s).cause = s.cause := rfl
@[simp] theorem takeResponse_busy (k : Nat) (s : State) : (takeResponse k s).busy = s.busy := rfl
@[simp] theorem takeResponse_responses (k : Nat) (s : State) : (takeResponse k s).responses = s.responses.eraseIdx k := rfl
@[simp] theorem takeResponse_waiting (k : Nat) (s : State) : (takeResponse k s).waiting = s.waiting := rfl
@[simp] theorem takeResponse_turns (k : Nat) (s : State) : (takeResponse k s).turns = s.turns := rfl

@[simp] theorem presentNext_fstate (c : List Bit) (s : State) : (presentNext c s).fstate = s.fstate := rfl
@[simp] theorem presentNext_frame (c : List Bit) (s : State) : (presentNext c s).frame = s.frame := rfl
@[simp] theorem presentNext_m (c : List Bit) (s : State) : (presentNext c s).m = s.m := rfl
@[simp] theorem presentNext_j (c : List Bit) (s : State) : (presentNext c s).j = s.j := rfl
@[simp] theorem presentNext_out (c : List Bit) (s : State) : (presentNext c s).out = s.out := rfl
@[simp] theorem presentNext_cause (c : List Bit) (s : State) : (presentNext c s).cause = s.cause := rfl
@[simp] theorem presentNext_busy (c : List Bit) (s : State) : (presentNext c s).busy = s.busy := rfl
@[simp] theorem presentNext_responses (c : List Bit) (s : State) : (presentNext c s).responses = s.responses := rfl
@[simp] theorem presentNext_waiting (c : List Bit) (s : State) : (presentNext c s).waiting = c :: s.waiting := rfl
@[simp] theorem presentNext_turns (c : List Bit) (s : State) : (presentNext c s).turns = .accept :: s.turns := rfl

end Sys2Proof.Machine
end

