-- ==== Sys2Proof/Laws/Steps.lean ====
section
/-! SUPPORT. What each shared operation and the step can do, said once: later proofs cite these inversion lemmas
instead of unfolding the step. -/

namespace Sys2Proof.Machine

/-! ## Meanings -/

/-- HENC, HDEC and FENC are one step from command to response and touch nothing else (R25, R88, R110). -/
theorem exec_atomic {i : Instr} (h : i.op ≠ .fdec) (s : State) : exec i s = .next (issue (responseOf i) s) := by
  cases i with
  | henc d => rfl
  | hdec r => rfl
  | fenc p =>
    show execFenc p s = _
    unfold execFenc
    cases hw : wrap p with
    | result frame => simp [answerOk, responseOf, responseOfAnswer, hw]
    | raised e => simp [raiseError, responseOf, responseOfAnswer, hw]
  | fdec f => exact absurd rfl h

theorem exec_fdec_idle {s : State} (h : s.busy = false) (f : List Bit) :
    exec (.fdec f) s = .next (startFrameDecoder f s) := by
  show execFdec f s = _
  simp [execFdec, h]

theorem exec_fdec_busy {s : State} (h : s.busy = true) (f : List Bit) :
    exec (.fdec f) s = .next (keepWaiting (.fdec f) s) := by
  show execFdec f s = _
  simp [execFdec, h]

/-- Everything a meaning can do: an atomic unit answers, an idle frame decoder starts, a busy one lets the command wait. -/
theorem exec_cases {i : Instr} {s t : State} (h : exec i s = .next t) :
    (i.op ≠ .fdec ∧ t = issue (responseOf i) s) ∨
    (∃ f, i = .fdec f ∧ s.busy = false ∧ t = startFrameDecoder f s) ∨
    (∃ f, i = .fdec f ∧ s.busy = true ∧ t = keepWaiting i s) := by
  by_cases hi : i.op = .fdec
  · cases i with
    | fdec f =>
      cases hb : s.busy
      · rw [exec_fdec_idle hb] at h
        cases h
        simp
      · rw [exec_fdec_busy hb] at h
        cases h
        simp
    | henc _ | hdec _ | fenc _ => simp [Instr.op] at hi
  · rw [exec_atomic hi] at h
    cases h
    exact .inl ⟨hi, rfl⟩

/-- Every meaning answers a next state. -/
theorem exec_next (i : Instr) (s : State) : ∃ t, exec i s = .next t := by
  by_cases h : i.op = .fdec
  · cases i with
    | fdec f => cases hb : s.busy <;> simp [exec_fdec_idle, exec_fdec_busy, hb]
    | henc _ | hdec _ | fenc _ => simp [Instr.op] at h
  · exact ⟨_, exec_atomic h s⟩

/-! ## FENC and FDEC as functions -/

theorem wrap_aligned {p : List Bit} (h : p.length % 4 = 0) :
    wrap p = .result (Config.HEADER ++ ((blocksOf p).map henc).flatMap bitsOfWord ++ Config.TERMINATOR) := by
  simp [wrap, payloadError, h, encodeBlocks_eq]

theorem wrap_misaligned {p : List Bit} (h : p.length % 4 ≠ 0) : wrap p = .raised .malformedAlignmentError := by
  simp [wrap, payloadError, h]

theorem unwrap_legal {f : List Bit} (h : frameError f = none) :
    unwrap f = .result (decodeWords (wordsOf (bodyOf f))) := by
  simp [unwrap, h]

theorem unwrap_illegal {f : List Bit} {e : ErrorKind} (h : frameError f = some e) : unwrap f = .raised e := by
  simp [unwrap, h]

theorem responseOf_fdec_legal {f : List Bit} (h : frameError f = none) :
    responseOf (.fdec f) = ⟨.fdec, .ok, decodeWords (wordsOf (bodyOf f))⟩ := by
  simp [responseOf, responseOfAnswer, unwrap_legal h]

theorem responseOf_fdec_illegal {f : List Bit} {e : ErrorKind} (h : frameError f = some e) :
    responseOf (.fdec f) = ⟨.fdec, statusOf e, []⟩ := by
  simp [responseOf, responseOfAnswer, unwrap_illegal h]

/-! ## The frame decoder's step -/

/-- The states in which the frame decoder has no enabled step (R99, R100). -/
theorem workStep_idle {s : State} (h : s.busy = false ∨ s.fstate = .done ∨ s.fstate = .rejected) :
    workStep s = .next s := by
  unfold workStep
  rcases h with h | h | h <;> simp [h]

theorem workStep_scanning {s : State} (hb : s.busy = true) (hf : s.fstate = .scanning) : workStep s = scanStep s := by
  simp [workStep, hb, hf]

theorem workStep_decoding {s : State} (hb : s.busy = true) (hf : s.fstate = .decoding) : workStep s = decodeStep s := by
  simp [workStep, hb, hf]

theorem scanStep_illegal {s : State} {e : ErrorKind} (h : frameError s.frame = some e) :
    scanStep s = .next (raiseError .fdec e s) := by
  simp [scanStep, h]

theorem scanStep_legal {s : State} (h : frameError s.frame = none) :
    scanStep s = .next { s with m := wordCount s.frame, fstate := .decoding } := by
  simp [scanStep, h]

theorem decodeStep_word {s : State} {w : Codeword} (hj : s.j < s.m) (hw : readWord s.frame s.j = some w) :
    decodeStep s = .next { s with out := s.out ++ bitsOfBlock (hdec w), j := s.j + 1 } := by
  simp [decodeStep, hj, hw]

theorem decodeStep_end {s : State} (hj : s.m ≤ s.j) : decodeStep s = .next (finishFrameDecoder s) := by
  simp [decodeStep, Nat.not_lt.2 hj]

/-- Everything a step of the frame decoder can do when it answers a next state. -/
theorem workStep_cases {s t : State} (h : workStep s = .next t) :
    (t = s ∧ (s.busy = false ∨ s.fstate = .done ∨ s.fstate = .rejected)) ∨
    (s.busy = true ∧ s.fstate = .scanning ∧ ∃ e, frameError s.frame = some e ∧ t = raiseError .fdec e s) ∨
    (s.busy = true ∧ s.fstate = .scanning ∧ frameError s.frame = none ∧
      t = { s with m := wordCount s.frame, fstate := .decoding }) ∨
    (s.busy = true ∧ s.fstate = .decoding ∧ s.j < s.m ∧ ∃ w, readWord s.frame s.j = some w ∧
      t = { s with out := s.out ++ bitsOfBlock (hdec w), j := s.j + 1 }) ∨
    (s.busy = true ∧ s.fstate = .decoding ∧ s.m ≤ s.j ∧ t = finishFrameDecoder s) := by
  cases hb : s.busy with
  | false =>
    rw [workStep_idle (.inl hb)] at h
    simp_all
  | true =>
    cases hf : s.fstate with
    | scanning =>
      rw [workStep_scanning hb hf] at h
      cases he : frameError s.frame with
      | none => rw [scanStep_legal he] at h; simp_all
      | some e => rw [scanStep_illegal he] at h; simp_all
    | decoding =>
      rw [workStep_decoding hb hf] at h
      rcases Nat.lt_or_ge s.j s.m with hj | hj
      · cases hw : readWord s.frame s.j with
        | none => simp [decodeStep, hj, hw] at h
        | some w => rw [decodeStep_word hj hw] at h; simp_all
      · rw [decodeStep_end hj] at h
        simp_all
    | done =>
      rw [workStep_idle (.inr (.inl hf))] at h
      simp_all
    | rejected =>
      rw [workStep_idle (.inr (.inr hf))] at h
      simp_all

/-! ## Accepting a command -/

theorem acceptNext_command {bound : Option Nat} {s : State} {c : List Bit} {rest : List (List Bit)} {i : Instr}
    (hw : s.waiting = c :: rest) (hd : decodeCommand c = .command i) (hi : i.wf bound = true) :
    acceptNext bound s = exec i { s with waiting := rest } := by
  simp [acceptNext, hw, hd, hi]

/-- Every command is within an unbounded instance (R36). -/
@[simp] theorem wf_unbounded (i : Instr) : i.wf Config.maxBits = true := by
  cases i <;> rfl

/-- Everything accepting can do when it answers a next state. -/
theorem acceptNext_cases {bound : Option Nat} {s t : State} (h : acceptNext bound s = .next t) :
    (s.waiting = [] ∧ t = s) ∨
    ∃ c rest i, s.waiting = c :: rest ∧ decodeCommand c = .command i ∧ i.wf bound = true ∧
      exec i { s with waiting := rest } = .next t := by
  unfold acceptNext at h
  cases hw : s.waiting with
  | nil => simp_all
  | cons c rest =>
    cases hd : decodeCommand c with
    | rejected why => simp [hw, hd] at h
    | command i =>
      cases hi : i.wf bound with
      | false => simp [hw, hd, hi] at h
      | true => exact .inr ⟨c, rest, i, rfl, hd, hi, by simpa [hw, hd, hi] using h⟩

/-! ## The step -/

theorem step_no_turns {s : State} (h : s.turns = []) :
    step s = if s.busy then workStep s else acceptNext Config.maxBits s := by
  cases hb : s.busy <;> simp [step, stepAt, stepBounded, h, defaultTurn, hb, takeTurn]

theorem step_turn {s : State} {t : Turn} {ts : List Turn} (h : s.turns = t :: ts) :
    step s = takeTurn Config.maxBits t { s with turns := ts } := by
  simp [step, stepAt, stepBounded, h]

/-- A step of the operation in progress, by a named turn or by default. -/
theorem step_work {s : State} {ts : List Turn} (h : s.turns = .work :: ts ∨ (s.turns = [] ∧ ts = []))
    (hb : s.busy = true) : step s = workStep { s with turns := ts } := by
  rcases h with h | ⟨h, rfl⟩
  · exact step_turn h
  · rw [step_no_turns h, if_pos hb, ← h]

/-- Everything a step can do when it answers a next state: `s₀` is the state with the turn used up. -/
theorem step_cases {s t : State} (h : step s = .next t) :
    ∃ s₀ : State, (∃ ts, s₀ = { s with turns := ts }) ∧
      (workStep s₀ = .next t ∨ acceptNext Config.maxBits s₀ = .next t ∨
        (∃ k ts, s.turns = .take k :: ts ∧ s₀ = { s with turns := ts } ∧ t = takeResponse k s₀) ∨
        (∃ ts, s.turns = .rst :: ts ∧ s₀ = { s with turns := ts } ∧ t = resetEvent s₀)) := by
  cases hts : s.turns with
  | nil =>
    rw [step_no_turns hts] at h
    refine ⟨s, ⟨[], by cases s; simp_all⟩, ?_⟩
    cases hb : s.busy <;> simp_all
  | cons a ts =>
    rw [step_turn hts] at h
    refine ⟨{ s with turns := ts }, ⟨ts, rfl⟩, ?_⟩
    cases a with
    | accept => exact .inr (.inl h)
    | work => exact .inl h
    | take k =>
      refine .inr (.inr (.inl ⟨k, ts, rfl, rfl, ?_⟩))
      simpa [takeTurn, eq_comm] using h
    | rst =>
      refine .inr (.inr (.inr ⟨ts, rfl, rfl, ?_⟩))
      simpa [takeTurn, eq_comm] using h

/-! ## Runs -/

@[simp] theorem runSteps_zero (s : State) : runSteps 0 s = .next s := rfl

theorem runSteps_succ {s t : State} (h : step s = .next t) (n : Nat) : runSteps (n + 1) s = runSteps n t := by
  simp [runSteps, h]

theorem runSteps_add {s t : State} {n : Nat} (h : runSteps n s = .next t) (k : Nat) :
    runSteps (n + k) s = runSteps k t := by
  induction n generalizing s with
  | zero =>
    simp at h
    subst h
    simp
  | succ n ih =>
    cases hs : step s with
    | next u =>
      rw [runSteps_succ hs] at h
      rw [show n + 1 + k = n + k + 1 by omega, runSteps_succ hs]
      exact ih h
    | fault r => simp [runSteps, hs] at h
    | refused r => simp [runSteps, hs] at h

@[simp] theorem thenRun_next (n : Nat) (t : State) : thenRun n (.next t) = runSteps n t := rfl

end Sys2Proof.Machine
end

