-- ==== Sys2Proof/Tests/Slice0.lean ====
section
/-! SUPPORT. Small tests, their expected values from spec/95_test_vectors.md and the tables of spec/, and for every
statement with hypotheses a witness that meets them. -/

namespace Sys2Proof.Tests

open Sys2Proof Sys2Proof.Machine

/-- The bits of a text of `0` and `1`, spaces left out. -/
def bits (t : String) : List Bit := (bitsOfDigits t.toList).getD []

/-! ## Command words written out from R58, R59 (programs P1, P4, P6) -/

theorem test_decode_henc_1011 :
    decodeCommand [false, false, true, false, true, true] = .command (.henc ⟨true, false, true, true⟩) := by decide

theorem test_decode_hdec_0100011 :
    decodeCommand [false, true, false, true, false, false, false, true, true] =
      .command (.hdec ⟨false, true, false, false, false, true, true⟩) := by decide

theorem test_decode_fenc_empty : decodeCommand [true, false] = .command (.fenc []) := by decide

theorem test_decode_fdec_empty : decodeCommand [true, true] = .command (.fdec []) := by decide

theorem test_encode_hdec : encode (.hdec ⟨true, true, true, false, false, true, true⟩) = bits "01 1110011" := by decide

/-- The opcode table's own words: match 0x00 (6 bits), 0x080 (9 bits), 0x2 and 0x3 (the 2 bits of op). -/
theorem test_table_words :
    decodeTableWord 8 0x00 = some (.henc ⟨false, false, false, false⟩) ∧
    decodeTableWord 16 0x080 = some (.hdec ⟨false, false, false, false, false, false, false⟩) ∧
    decodeTableWord 8 0x2 = some (.fenc []) ∧ decodeTableWord 8 0x3 = some (.fdec []) := by decide

theorem test_table_words_exact :
    decodeTableWord 6 0b001011 = some (.henc ⟨true, false, true, true⟩) ∧
    decodeTableWord 9 0b011110011 = some (.hdec ⟨true, true, true, false, false, true, true⟩) ∧
    decodeTableWord 2 0b10 = some (.fenc []) ∧ decodeTableWord 2 0b01 = none := by decide

/-- Each of the table's words runs as the very next step. -/
theorem test_fetch_henc : step (State.reset.withFetchWord 8 0) =
    exec (.henc ⟨false, false, false, false⟩) State.reset := rfl

theorem test_fetch_hdec : step (State.reset.withFetchWord 16 0x080) =
    exec (.hdec ⟨false, false, false, false, false, false, false⟩) State.reset := rfl

theorem test_fetch_fenc : step (State.reset.withFetchWord 8 2) = exec (.fenc []) State.reset := rfl

theorem test_fetch_fdec : step (State.reset.withFetchWord 8 3) = exec (.fdec []) State.reset := rfl

/-! ## Well-formedness: an ill-formed term for each check -/

theorem test_wf_refuses_no_op : commandWf [true] = false := by decide
theorem test_wf_refuses_henc_of_5_bits : commandWf (bits "00 10110") = false := by decide
theorem test_wf_refuses_hdec_of_6_bits : commandWf (bits "01 111001") = false := by decide
theorem test_wf_refuses_fenc_above_bound : (Instr.fenc (bits "10110")).wf (some 4) = false := by decide
theorem test_wf_refuses_fdec_above_bound : (Instr.fdec (bits "1")).wf (some 0) = false := by decide
theorem test_wf_accepts_at_bound : (Instr.fenc (bits "1011")).wf (some 4) = true := by decide

theorem test_reject_names :
    decodeCommand [] = .rejected .noOp ∧ decodeCommand (bits "00 101") = .rejected .hencWidth ∧
    decodeCommand (bits "01 1011") = .rejected .hdecWidth := by decide

/-! ## Instructions, one step each -/

/-- V1. -/
theorem test_henc_1011 : (responseOf (.henc ⟨true, false, true, true⟩)).res = bits "0110011" := by decide

/-- V9: the block with d4 alone has all three parities set. -/
theorem test_henc_0001 : (responseOf (.henc ⟨false, false, false, true⟩)).res = bits "1101001" := by decide

/-- V3: index 0 flipped. -/
theorem test_hdec_1110011 : (responseOf (.hdec ⟨true, true, true, false, false, true, true⟩)).res = bits "1011" := by decide

/-- V8: positions 3 and 5 flipped, wrong data, status OK. -/
theorem test_hdec_0100111 :
    responseOf (.hdec ⟨false, true, false, false, true, true, true⟩) = ⟨.hdec, .ok, bits "0101"⟩ := by decide

/-- V10: two blocks. -/
theorem test_fenc_two_blocks :
    responseOf (.fenc (bits "1011 0100")) = ⟨.fenc, .ok, bits "10101010 0110011 1001100 01010101"⟩ := by decide

/-- V10: five bits. -/
theorem test_fenc_misaligned :
    responseOf (.fenc (bits "10110")) = ⟨.fenc, .malformedAlignmentError, []⟩ := by decide

/-- V11: both words corrected. -/
theorem test_fdec_two_flips :
    responseOf (.fdec (bits "10101010 0110010 1001101 01010101")) = ⟨.fdec, .ok, bits "1011 0100"⟩ := by decide

/-- V11: wrong header and a body of 1 bit, FrameFormatError wins (R112). -/
theorem test_fdec_both_faults :
    responseOf (.fdec (bits "00101010 0 01010101")) = ⟨.fdec, .frameFormatError, []⟩ := by decide

/-- V12, the first frame: the state after each step. -/
def decodingTwoWords (m j : Nat) (out : List Bit) (f : FState) : State :=
  { State.reset with
    fstate := f, frame := bits "10101010 1110011 1001100 01010101", m := m, j := j, out := out, busy := true }

theorem test_trace_start :
    exec (.fdec (bits "10101010 1110011 1001100 01010101")) State.reset = .next (decodingTwoWords 0 0 [] .scanning) := rfl

theorem test_trace_scan : step (decodingTwoWords 0 0 [] .scanning) = .next (decodingTwoWords 2 0 [] .decoding) := rfl

theorem test_trace_word :
    step (decodingTwoWords 2 0 [] .decoding) = .next (decodingTwoWords 2 1 (bits "1011") .decoding) := rfl

/-- The fault of log 9, in a state no run reaches. -/
theorem test_word_outside_frame : step (decodingTwoWords 9 3 [] .decoding) = .fault .indexOutOfRange := rfl

/-- R67: the third line of the rule's listing, and its error line. -/
theorem test_assembly :
    assemble "FENC 1011".toList = some (.fenc (bits "1011")) ∧
    responseText ⟨.fenc, .ok, bits "10101010011001101010101"⟩ = "OK 10101010011001101010101".toList ∧
    responseText ⟨.fdec, .ok, []⟩ = "OK <empty>".toList ∧
    responseText ⟨.fdec, .frameFormatError, []⟩ = "FRAME_FORMAT_ERROR".toList ∧
    assemble "HENC 102".toList = none := by decide

/-- R7: the constants' lengths. -/
theorem test_pattern_lengths :
    Config.HEADER.length = Config.HLEN ∧ Config.TERMINATOR.length = Config.TLEN := by decide

/-! ## Witnesses: states and operands that meet the hypotheses of each statement -/

theorem witness_BlockRoundTripCorrectsAnySingleFlip :
    wordOfBits ((bitsOfWord (henc ⟨true, false, true, true⟩)).modify 0 (fun x => !x)) =
      some ⟨true, true, true, false, false, true, true⟩ ∧
    wordOfBits ((bitsOfWord (henc ⟨true, false, true, true⟩)).modify 6 (fun x => !x)) =
      some ⟨false, true, true, false, false, true, false⟩ ∧ 0 ≤ 6 ∧ 6 ≤ 6 := by decide

theorem witness_DoubleFlipIsMiscorrectedSilently : 1 ≤ 1 ∧ 1 ≤ 7 ∧ 1 ≤ 7 ∧ 7 ≤ 7 ∧ 1 ≠ 7 := by decide

theorem witness_HencIsLinearWithDistanceThree :
    (⟨false, false, false, false⟩ : DataBlock) ≠ ⟨true, false, false, false⟩ ∧
    henc ⟨true, false, true, true⟩ = henc ⟨true, false, true, true⟩ := by decide

theorem witness_DecodeAndEncodeAgree :
    decodeCommand (bits "00 1011") = .command (.henc ⟨true, false, true, true⟩) ∧
    decodeCommand (bits "10") = .command (.fenc []) := by decide

theorem witness_PackingPutsIndexZeroFirst : 0 < (bits "10").length ∧ 1 < (bits "10").length := by decide

theorem witness_FencEncodesBlocksInOrder :
    (bits "").length % 4 = 0 ∧ (bits "1011 0100").length % 4 = 0 ∧ 1 < (bits "1011 0100").length / 4 := by decide

theorem witness_FencRaisesOnMisalignedPayload :
    (bits "1").length % 4 ≠ 0 ∧ (bits "101").length % 4 ≠ 0 ∧ (bits "10110").length % 4 ≠ 0 := by decide

theorem witness_FencAnswersLegalFrames :
    ∃ t, exec (.fenc []) State.reset = .next t ∧
      t.responses = State.reset.responses ++ [⟨.fenc, .ok, bits "10101010 01010101"⟩] := ⟨_, rfl, by decide⟩

theorem witness_FdecStartsInScanning :
    State.reset.busy = false ∧ ({ State.reset with fstate := .rejected, cause := .frameFormatError } : State).busy = false := by
  decide

theorem witness_FdecWaitsForABusyDecoder : (decodingTwoWords 2 1 (bits "1011") .decoding).busy = true := by decide

/-- A frame decoder about to scan. -/
def scanning (f : List Bit) : State := { State.reset with frame := f, busy := true }

/-- The clauses at their borders: 15 bits matching at both ends with overlap, a wrong last bit, 17 bits, 16 bits. -/
theorem witness_ScanningStepChecksEverything :
    (scanning (bits "101010101010101")).turns = [] ∧ (scanning (bits "101010101010101")).busy = true ∧
    (scanning (bits "101010101010101")).fstate = .scanning ∧
    ({ scanning (bits "101010101010101") with turns := [.work] } : State).turns = .work :: [] ∧ ¬16 ≤ (bits "101010101010101").length ∧
    slice (bits "10101010 01010100") (16 - 8) 16 ≠ Config.TERMINATOR ∧
    slice (bits "10101010 0 01010101") 0 8 = Config.HEADER ∧
    slice (bits "10101010 0 01010101") (17 - 8) 17 = Config.TERMINATOR ∧ (17 - 16) % 7 ≠ 0 ∧
    slice (bits "10101010 01010101") 0 8 = Config.HEADER ∧
    slice (bits "10101010 01010101") (16 - 8) 16 = Config.TERMINATOR ∧ (16 - 16) % 7 = 0 := by decide

theorem witness_DecodingStepTakesOneWord :
    (decodingTwoWords 2 1 (bits "1011") .decoding).j < (decodingTwoWords 2 1 (bits "1011") .decoding).m ∧
    wordOfBits (slice (decodingTwoWords 2 1 (bits "1011") .decoding).frame (8 + 7 * 1) (15 + 7 * 1)) =
      some ⟨true, false, false, true, true, false, false⟩ ∧
    wordOfBits (slice (decodingTwoWords 9 3 [] .decoding).frame (8 + 7 * 3) (15 + 7 * 3)) = none ∧
    (decodingTwoWords 2 2 [] .decoding).m ≤ (decodingTwoWords 2 2 [] .decoding).j ∧
    (decodingTwoWords 2 2 [] .decoding).turns = [] ∧ (decodingTwoWords 2 2 [] .decoding).busy = true ∧
    (decodingTwoWords 2 2 [] .decoding).fstate = .decoding ∧
    ({ decodingTwoWords 2 3 [] .decoding with turns := [.work] } : State).m ≤ 3 ∧
    ({ decodingTwoWords 2 3 [] .decoding with turns := [.work] } : State).turns = .work :: [] := by decide

/-- A state at rest in a terminal value of FSTATE, with a turn of the frame decoder next. -/
def terminal (f : FState) : State := { State.reset with fstate := f, turns := [.work] }

theorem witness_TerminalStatesHaveNoStep :
    (terminal .done).fstate = .done ∧ (terminal .rejected).fstate = .rejected ∧ (terminal .done).turns = .work :: [] := by
  decide

theorem witness_FdecDecodesWordsInOrder :
    State.reset.busy = false ∧ State.reset.turns = [] ∧
    (bits "10101010 01010101").length = 16 + 7 * 0 ∧ (bits "10101010 1110011 01010101").length = 16 + 7 * 1 ∧
    slice (bits "10101010 1110011 01010101") 0 8 = Config.HEADER ∧
    slice (bits "10101010 1110011 01010101") (23 - 8) 23 = Config.TERMINATOR := by decide

theorem witness_FdecAcceptsAnyBody :
    [(⟨true, true, true, true, true, true, true⟩ : Codeword)].flatMap bitsOfWord = List.replicate (7 * 1) true ∧
    State.reset.busy = false ∧ State.reset.turns = [] := by decide

theorem witness_StateMachineAgreesWithUnwrap :
    unwrap (bits "10101010 1110011 01010101") = .result (bits "1011") ∧
    unwrap (bits "10101010 0 01010101") = .raised .malformedAlignmentError ∧
    2 < fdecSteps (bits "10101010 1110011 01010101") := by decide

theorem witness_WrongHeaderOrTerminatorIsRejected :
    slice (bits "10101011 0110011 01010101") 0 8 ≠ Config.HEADER ∧
    slice (bits "10101010 0110011 01010100") (23 - 8) 23 ≠ Config.TERMINATOR := by decide

theorem witness_ShortFrameIsRejected : (bits "").length < 16 ∧ (bits "101010101010101").length < 16 := by decide

theorem witness_RepeatedFdecAnswersTheSame :
    State.reset.busy = false ∧ State.reset.turns = [] ∧
    ({ State.reset with fstate := .rejected, cause := .frameFormatError } : State).busy = false ∧
    ({ State.reset with fstate := .rejected, cause := .frameFormatError } : State).turns = [] := by decide

theorem witness_FrameRoundTrip :
    State.reset.busy = false ∧ State.reset.turns = [] ∧ (bits "1011 0100").length % 4 = 0 := by decide

theorem witness_OneFlipPerWordIsCorrected :
    List.Forall₂ (fun b w => distance (henc b) w ≤ 1) (blocksOf (bits "1011 0100"))
      [⟨false, true, true, false, false, true, false⟩, ⟨true, false, false, true, true, false, true⟩] ∧
    bits "10101010 0110010 1001101 01010101" = Config.HEADER ++
      [⟨false, true, true, false, false, true, false⟩, ⟨true, false, false, true, true, false, true⟩].flatMap bitsOfWord ++
      Config.TERMINATOR := by
  refine ⟨.cons (by decide) (.cons (by decide) .nil), by decide⟩

theorem witness_FlippedPatternBitIsNeverCorrected :
    frameError (bits "10101010 0110011 01010101") = none ∧ 0 < 8 ∧ 7 < 8 ∧ 23 - 8 ≤ 15 ∧ 15 < 23 ∧ 23 - 8 ≤ 22 ∧ 22 < 23 := by
  decide

/-- A command next in line: by a turn, and by default. -/
theorem witness_StepRunsTheDecodedInstruction :
    ({ State.reset with waiting := [bits "00 1011"], turns := [.accept] } : State).waiting = bits "00 1011" :: [] ∧
    decodeCommand (bits "00 1011") = .command (.henc ⟨true, false, true, true⟩) ∧
    ({ State.reset with waiting := [bits "00 1011"], turns := [.accept] } : State).turns = .accept :: [] ∧
    ({ State.reset with waiting := [bits "00 1011"] } : State).turns = [] ∧
    ({ State.reset with waiting := [bits "00 1011"] } : State).busy = false := by decide

theorem witness_StepRefusesWhatCannotBePresented :
    ({ State.reset with waiting := [bits "00 101"], turns := [.accept] } : State).waiting = bits "00 101" :: [] ∧
    decodeCommand (bits "00 101") = .rejected .hencWidth ∧
    ({ State.reset with waiting := [bits "00 101"], turns := [.accept] } : State).turns = .accept :: [] ∧
    ({ State.reset with waiting := [bits "00 101"] } : State).turns = [] ∧
    ({ State.reset with waiting := [bits "00 101"] } : State).busy = false := by decide

theorem witness_ResetEventAbandonsTheOperation :
    ({ decodingTwoWords 2 1 (bits "1011") .decoding with turns := [.rst] } : State).turns = .rst :: [] := by decide

theorem witness_IdleHardwareWaits :
    State.reset.turns = [] ∧ State.reset.busy = false ∧ State.reset.waiting = [] := by decide

theorem witness_TakingAResponseChangesNothingElse :
    ({ State.reset with
      responses := [⟨.henc, .ok, bits "0000000"⟩, ⟨.hdec, .ok, bits "0000"⟩], turns := [.take 1] } : State).responses =
      [⟨.henc, .ok, bits "0000000"⟩] ++ ⟨.hdec, .ok, bits "0000"⟩ :: [] := by decide

theorem witness_FstateMovesOnlyAsTabled :
    Invariant (decodingTwoWords 0 0 [] .scanning) ∧
    step (decodingTwoWords 0 0 [] .scanning) = .next (decodingTwoWords 2 0 [] .decoding) ∧
    (decodingTwoWords 0 0 [] .scanning).fstate ≠ (decodingTwoWords 2 0 [] .decoding).fstate :=
  ⟨by decide, rfl, by decide⟩

/-- The last case of the same statement: DONE on the empty frame, with the next FDEC offered. -/
theorem witness_FstateMovesOnlyAsTabled_start :
    let s : State := { State.reset with
      fstate := .done, frame := bits "10101010 01010101", waiting := [bits "11 1"] }
    Invariant s ∧ ∃ t, step s = .next t ∧ s.fstate ≠ t.fstate := ⟨by decide, _, rfl, by decide⟩

/-- Serves StepKeepsTheInvariant, PresentedCommandsNeverStopTheMachine, OperationInProgressAlwaysEnds and
IssuedResponsesDependOnTheCommandOnly: an operation half done, with a command waiting. -/
def halfDone : State := { decodingTwoWords 2 1 (bits "1011") .decoding with waiting := [bits "00 1011"] }

theorem witness_StepKeepsTheInvariant : Invariant halfDone ∧ ∃ t, step halfDone = .next t :=
  ⟨by decide, _, rfl⟩

theorem witness_PresentedCommandsNeverStopTheMachine : Invariant halfDone ∧ Presentable halfDone := by decide

theorem witness_OperationInProgressAlwaysEnds :
    Invariant halfDone ∧ halfDone.turns = [] ∧ halfDone.busy = true := by decide

theorem witness_IssuedResponsesDependOnTheCommandOnly : Invariant halfDone ∧ ∃ t, step halfDone = .next t :=
  witness_StepKeepsTheInvariant

theorem witness_EveryOfferedCommandIsAnswered :
    ({ State.reset with waiting := [bits "00 1011", bits "11"] } : State).waiting =
      [Instr.henc ⟨true, false, true, true⟩, .fdec []].map encode := by decide

theorem witness_CommandsAreNeverDropped :
    (∃ t, step halfDone = .next t) ∧ (∀ k ts, halfDone.turns ≠ .take k :: ts) ∧ ∀ ts, halfDone.turns ≠ .rst :: ts :=
  ⟨⟨_, rfl⟩, fun _ _ => by simp [halfDone, decodingTwoWords, State.reset],
    fun _ => by simp [halfDone, decodingTwoWords, State.reset]⟩

theorem witness_OtherUnitsCommuteWithTheFrameDecoder :
    (Instr.henc ⟨true, false, true, true⟩).op ≠ .fdec ∧ ∃ t, workStep halfDone = .next t := ⟨by decide, _, rfl⟩

/-- Two states about to scan the same frame with different counts left over, and one with no operation. -/
theorem witness_StaleFrameAndCountAreNeverRead :
    ({ { scanning (bits "10101010 01010101") with m := 5 } with
      frame := (scanning (bits "10101010 01010101")).frame, m := (scanning (bits "10101010 01010101")).m } : State) =
      scanning (bits "10101010 01010101") ∧
    (scanning (bits "10101010 01010101")).fstate = .scanning ∧ State.reset.busy = false ∧
    ∃ t, step (scanning (bits "10101010 01010101")) = .next t := ⟨by decide, by decide, by decide, _, rfl⟩

theorem witness_BoundedInstanceRefusesOnlyLongOperands :
    ({ State.reset with waiting := [bits "10 1011"], turns := [.accept] } : State).waiting = bits "10 1011" :: [] ∧
    ({ State.reset with waiting := [bits "10 1011"], turns := [.accept] } : State).turns = .accept :: [] ∧
    decodeCommand (bits "10 1011") = .command (.fenc (bits "1011")) ∧
    (Instr.fenc (bits "1011")).op = .fenc ∧ 3 < (Instr.fenc (bits "1011")).arg.length ∧
    ({ State.reset with waiting := [bits "10 1011"] } : State).turns = [] ∧
    ({ State.reset with waiting := [bits "10 1011"] } : State).busy = false ∧
    ¬4 < (Instr.fenc (bits "1011")).arg.length ∧
    decodeCommand (bits "00 1011") = .command (.henc ⟨true, false, true, true⟩) ∧
    ¬((Instr.henc ⟨true, false, true, true⟩).op = .fenc ∨ (Instr.henc ⟨true, false, true, true⟩).op = .fdec) := by decide

theorem witness_InstancesAreIndependent :
    [State.reset, halfDone][1]? = some halfDone ∧ (∃ t, step halfDone = .next t) ∧
    step { State.reset with waiting := [[]], turns := [.accept] } = .refused (.notPresentable .noOp) ∧
    step (decodingTwoWords 9 3 [] .decoding) = .fault .indexOutOfRange :=
  ⟨rfl, ⟨_, rfl⟩, rfl, rfl⟩

end Sys2Proof.Tests
end

section
/-! The block codec (spec/40_block_codec.md): what the syndrome, the correction and the extraction do to a codeword
with at most one flipped bit, and the statements about HENC and HDEC that follow. -/

namespace Sys2Proof.Machine

/-! ## The two meanings -/

/-- HENC is one response and nothing else (R69, R25). -/
theorem exec_henc (d : DataBlock) (s : State) :
    exec (.henc d) s = .next (issue ⟨.henc, .ok, bitsOfWord (henc d)⟩ s) :=
  exec_atomic (by simp [Instr.op]) s

/-- HDEC is one response and nothing else (R73, R25). -/
theorem exec_hdec (r : Codeword) (s : State) :
    exec (.hdec r) s = .next (issue ⟨.hdec, .ok, bitsOfBlock (hdec r)⟩ s) :=
  exec_atomic (by simp [Instr.op]) s

/-! ## Parity, syndrome and error position -/

theorem bitsOfWord_henc (d : DataBlock) : bitsOfWord (henc d) =
    [d.d1 ^^ d.d2 ^^ d.d4, d.d1 ^^ d.d3 ^^ d.d4, d.d1, d.d2 ^^ d.d3 ^^ d.d4, d.d2, d.d3, d.d4] := rfl

@[simp] theorem extract_henc (d : DataBlock) : extract (henc d) = d := rfl

/-- Each check is a received parity bit against the parity of the received data bits (R74). -/
theorem syndrome_eq_xor_parity (r : Codeword) : syndrome r = (r.p1 ^^ (parity (extract r)).1,
    r.p2 ^^ (parity (extract r)).2.1, r.p3 ^^ (parity (extract r)).2.2) := by
  simp [syndrome, parity, extract]

/-- In a codeword each check is a parity bit against itself (R70 item 2). -/
@[simp] theorem syndrome_henc (d : DataBlock) : syndrome (henc d) = (false, false, false) := by
  rw [syndrome_eq_xor_parity, extract_henc]
  simp [henc]

/-- Three bits with weights 1, 2 and 4 (R75). -/
theorem errorPos_le_seven (c : Bit × Bit × Bit) : errorPos c ≤ 7 := by
  obtain ⟨c1, c2, c3⟩ := c
  have h1 := c1.toNat_le
  have h2 := c2.toNat_le
  have h3 := c3.toNat_le
  simp only [errorPos]
  omega

/-- The error position is the number whose binary digits are the checks (R75). -/
theorem errorPos_testBit {k : Nat} (hk : k ≤ 7) : errorPos (k.testBit 0, k.testBit 1, k.testBit 2) = k := by
  interval_cases k <;> rfl

/-- A flip at position `k` toggles exactly the checks whose weight is in the binary form of `k`
(spec/30_encoding.md R49). -/
theorem syndrome_flipAt {k : Nat} (hk : k ≤ 7) (w : Codeword) : syndrome (flipAt k w) =
    ((syndrome w).1 ^^ k.testBit 0, (syndrome w).2.1 ^^ k.testBit 1, (syndrome w).2.2 ^^ k.testBit 2) := by
  interval_cases k <;> simp [flipAt, syndrome, Nat.testBit]

/-- The syndrome of a codeword with one flipped bit names that bit's position (R78 item 2). -/
theorem errorPos_syndrome_flipAt_henc {k : Nat} (hk : k ≤ 7) (d : DataBlock) :
    errorPos (syndrome (flipAt k (henc d))) = k := by
  rw [syndrome_flipAt hk, syndrome_henc]
  simpa using errorPos_testBit hk

/-! ## Correction -/

/-- Position `i + 1` is index `i` (R11, R55); past the word both sides change nothing. -/
theorem bitsOfWord_flipAt (i : Nat) (w : Codeword) :
    bitsOfWord (flipAt (i + 1) w) = (bitsOfWord w).modify i (fun b => !b) := by
  match i with
  | 0 | 1 | 2 | 3 | 4 | 5 | 6 => rfl
  | j + 7 => exact (List.modify_eq_self (by simp)).symm

/-- The correction step on the bits of the word, by index (R76). -/
theorem bitsOfWord_correct (r : Codeword) (e : Nat) : bitsOfWord (correct r e) =
    if e ≠ 0 then (bitsOfWord r).modify (e - 1) (fun b => !b) else bitsOfWord r := by
  cases e with
  | zero => rfl
  | succ i => exact bitsOfWord_flipAt i r

/-- The extraction on the bits of the word, by index (R77). -/
theorem bitsOfBlock_extract (w : Codeword) : bitsOfBlock (extract w) =
    [(bitsOfWord w).getD 2 false, (bitsOfWord w).getD 4 false, (bitsOfWord w).getD 5 false,
      (bitsOfWord w).getD 6 false] := rfl

@[simp] theorem flipAt_flipAt (k : Nat) (w : Codeword) : flipAt k (flipAt k w) = w := by
  match k with
  | 0 | _ + 8 => rfl
  | 1 | 2 | 3 | 4 | 5 | 6 | 7 => simp [flipAt]

/-- Correcting at the flipped position gives the word back, and so does correcting nothing where nothing was
flipped (`k = 0`). -/
@[simp] theorem correct_flipAt (k : Nat) (w : Codeword) : correct (flipAt k w) k = w := by
  cases k with
  | zero => rfl
  | succ i => exact flipAt_flipAt (i + 1) w

/-- HDEC gives the block back from its codeword, clean (`k = 0`) or with one bit flipped (R78). -/
theorem hdec_flipAt_henc {k : Nat} (hk : k ≤ 7) (d : DataBlock) : hdec (flipAt k (henc d)) = d := by
  rw [hdec, errorPos_syndrome_flipAt_henc hk, correct_flipAt, extract_henc]

@[simp] theorem hdec_henc (d : DataBlock) : hdec (henc d) = d := hdec_flipAt_henc (Nat.zero_le 7) d

/-! ## The statements -/

/-- Settles O2: the corrected word by index is `correct`, and its data bits are `extract`. -/
theorem hdecAnswersCorrectedDataBits : Obligations.HdecAnswersCorrectedDataBits := by
  intro p1 p2 d1 p3 d2 d3 d4 s r c1 c2 c3 e w
  have hw : bitsOfWord (correct ⟨p1, p2, d1, p3, d2, d3, d4⟩ e) = w := bitsOfWord_correct _ e
  have hres : bitsOfBlock (hdec ⟨p1, p2, d1, p3, d2, d3, d4⟩) =
      [w.getD 2 false, w.getD 4 false, w.getD 5 false, w.getD 6 false] := hw ▸ bitsOfBlock_extract _
  refine ⟨errorPos_le_seven (c1, c2, c3), rfl, ?_⟩
  rw [exec_hdec, hres, issue]

/-- Settles O5: a flip at index `i` is `flipAt (i + 1)`, which the syndrome names and the correction undoes. -/
theorem blockRoundTripCorrectsAnySingleFlip : Obligations.BlockRoundTripCorrectsAnySingleFlip := by
  intro b s
  refine ⟨by rw [exec_hdec, hdec_henc, issue], fun i r hi hr => ?_⟩
  have hk : i + 1 ≤ 7 := by omega
  obtain rfl : flipAt (i + 1) (henc b) = r := by
    rwa [← bitsOfWord_flipAt, wordOfBits_bitsOfWord, Option.some.injEq] at hr
  rw [errorPos_syndrome_flipAt_henc hk, exec_hdec, hdec_flipAt_henc hk]
  exact ⟨rfl, correct_flipAt _ _, rfl⟩

/-- Settles O1, from the one response of HENC. -/
theorem hencAnswersCodeword : Obligations.HencAnswersCodeword := by
  intro d1 d2 d3 d4 s
  exact ⟨rfl, by rw [exec_henc, bitsOfWord_henc, issue]⟩

end Sys2Proof.Machine
end

section
/-! The frame protocol (spec/41_frame_protocol.md): the undisturbed run of an FDEC operation from its acceptance to its
response, FENC of whole blocks, and the statements about both that follow. -/

namespace Sys2Proof.Machine

/-! ## FENC of whole blocks -/

theorem responseOf_fenc_aligned {p : List Bit} (h : p.length % 4 = 0) : responseOf (.fenc p) =
    ⟨.fenc, .ok, Config.HEADER ++ ((blocksOf p).map henc).flatMap bitsOfWord ++ Config.TERMINATOR⟩ := by
  simp only [responseOf, responseOfAnswer, wrap_aligned h]

/-- FENC is one response and nothing else (R83, R88). -/
theorem exec_fenc (p : List Bit) (s : State) : exec (.fenc p) s = .next (issue (responseOf (.fenc p)) s) :=
  exec_atomic (by simp [Instr.op]) s

/-- Block `i` of a payload of whole blocks, by index (R52). -/
theorem slice_payload {p : List Bit} (h : p.length % 4 = 0) {i : Nat} {b : DataBlock} (hb : (blocksOf p)[i]? = some b) :
    slice p (4 * i) (4 * i + 4) = bitsOfBlock b := by
  have hs := slice_flatMap_bitsOfBlock hb
  rwa [flatMap_blocksOf h] at hs

/-- Word `j` of a frame put together from its words, by index (R53). -/
theorem slice_built_frame {ws : List Codeword} {j : Nat} {w : Codeword} (h : ws[j]? = some w) :
    slice (Config.HEADER ++ ws.flatMap bitsOfWord ++ Config.TERMINATOR) (8 + 7 * j) (15 + 7 * j) = bitsOfWord w :=
  slice_legal_frame (built_frame_legal ws) (by rwa [built_frame_words])

/-! ## The run of an FDEC operation -/

/-- With no order of moves given, the operation in progress moves first (log 2): its SCANNING step. -/
theorem step_scanning {s : State} (ht : s.turns = []) (hb : s.busy = true) (hf : s.fstate = .scanning) :
    step s = scanStep s := by
  rw [step_no_turns ht, if_pos hb, workStep_scanning hb hf]

/-- With no order of moves given, the operation in progress moves first (log 2): its DECODING step. -/
theorem step_decoding {s : State} (ht : s.turns = []) (hb : s.busy = true) (hf : s.fstate = .decoding) :
    step s = decodeStep s := by
  rw [step_no_turns ht, if_pos hb, workStep_decoding hb hf]

/-- In the midst of an FDEC operation on a legal frame `f`: DECODING, the first `n` words decoded (R98). Every register
is written, so nothing of what the frame decoder holds in `s` is left. -/
def decodingAfter (f : List Bit) (n : Nat) (s : State) : State :=
  { s with fstate := .decoding, frame := f, m := wordCount f, j := n,
           out := decodeWords ((wordsOf (bodyOf f)).take n), cause := .noCause, busy := true }

/-- In DONE after an FDEC operation on a legal frame `f` (R99). -/
def doneWith (f : List Bit) (s : State) : State :=
  { s with fstate := .done, frame := f, m := wordCount f, j := wordCount f,
           out := decodeWords (wordsOf (bodyOf f)), cause := .noCause, busy := false }

section LegalFrame

variable {f : List Bit} {s : State} (ht : s.turns = []) (hl : frameError f = none)

include ht hl

/-- The SCANNING step of a legal frame enters DECODING with no word decoded yet (R97). -/
theorem step_start_legal : step (startFrameDecoder f s) = .next (decodingAfter f 0 s) := by
  rw [step_scanning (s := startFrameDecoder f s) ht rfl rfl, scanStep_legal hl]
  rfl

/-- One DECODING step decodes the next word (R98). -/
theorem step_decodingAfter {n : Nat} (hn : n < wordCount f) :
    step (decodingAfter f n s) = .next (decodingAfter f (n + 1) s) := by
  have hw := List.getElem?_eq_getElem (l := wordsOf (bodyOf f)) (i := n) (by rwa [wordsOf_bodyOf_length hl])
  rw [step_decoding (s := decodingAfter f n s) ht rfl rfl, decodeStep_word hn (readWord_legal_frame hl hw),
    decodingAfter, decodingAfter, decodeWords_take_succ hw]

/-- While there are `k` words left, `k` DECODING steps decode them (R98). -/
theorem runSteps_decodingAfter {n k : Nat} (hk : n + k ≤ wordCount f) :
    runSteps k (decodingAfter f n s) = .next (decodingAfter f (n + k) s) := by
  induction k generalizing n with
  | zero => rfl
  | succ k ih =>
    rw [runSteps_succ (step_decodingAfter ht hl (by omega)), ih (by omega), Nat.add_right_comm, Nat.add_assoc]

/-- With no word left, the DECODING step enters DONE and answers (R99). -/
theorem step_decodingAfter_all :
    step (decodingAfter f (wordCount f) s) = .next (issue (responseOf (.fdec f)) (doneWith f s)) := by
  have hall : (wordsOf (bodyOf f)).take (wordCount f) = wordsOf (bodyOf f) :=
    List.take_of_length_le (wordsOf_bodyOf_length hl).le
  rw [step_decoding (s := decodingAfter f (wordCount f) s) ht rfl rfl, decodeStep_end (Nat.le_refl _),
    responseOf_fdec_legal hl, decodingAfter, hall]
  rfl

/-- The undisturbed run on a legal frame: one SCANNING step, a DECODING step for each word, and the entry to DONE
(R97 to R99, R101). -/
theorem run_fdec_legal (hb : s.busy = false) :
    thenRun (wordCount f + 2) (exec (.fdec f) s) = .next (issue (responseOf (.fdec f)) (doneWith f s)) := by
  have hwords := runSteps_decodingAfter ht hl (n := 0) (k := wordCount f) (by omega)
  rw [Nat.zero_add] at hwords
  rw [exec_fdec_idle hb, thenRun_next, runSteps_succ (step_start_legal ht hl), runSteps_add hwords,
    runSteps_succ (step_decodingAfter_all ht hl), runSteps_zero]

end LegalFrame

/-- The undisturbed run on an operand that fails a test: the SCANNING step raises the error (R97, R100). -/
theorem run_fdec_illegal {f : List Bit} {e : ErrorKind} {s : State} (ht : s.turns = []) (he : frameError f = some e)
    (hb : s.busy = false) :
    thenRun 1 (exec (.fdec f) s) = .next (raiseError .fdec e (startFrameDecoder f s)) := by
  have hscan := step_scanning (s := startFrameDecoder f s) ht rfl rfl
  rw [scanStep_illegal he] at hscan
  rw [exec_fdec_idle hb, thenRun_next, runSteps_succ hscan, runSteps_zero]

@[simp] theorem responseOfAnswer_op (op : Op) (a : Answer) : (responseOfAnswer op a).op = op := by
  cases a <;> rfl

/-- Whatever the operand and whatever the decoder was left holding, the undisturbed operation ends after the steps of
R101 with the one response of its command, and the decoder is idle (R42 item 1, R104). -/
theorem run_fdec_answers (f : List Bit) {s : State} (ht : s.turns = []) (hb : s.busy = false) :
    ∃ t, thenRun (fdecSteps f) (exec (.fdec f) s) = .next t ∧ t.responses = s.responses ++ [responseOf (.fdec f)] ∧
      t.busy = false := by
  cases he : frameError f with
  | none => exact ⟨_, by rw [fdecSteps, he]; exact run_fdec_legal ht he hb, rfl, rfl⟩
  | some e =>
    refine ⟨_, by rw [fdecSteps, he]; exact run_fdec_illegal ht he hb, ?_, rfl⟩
    rw [responseOf_fdec_illegal he]
    rfl

/-! ## Constant bodies -/

/-- A word of equal bits is the codeword of a block of equal bits, since each parity covers three of them (R69). -/
theorem hdec_constant (b : Bit) : hdec ⟨b, b, b, b, b, b, b⟩ = ⟨b, b, b, b⟩ := by
  have hcode : henc ⟨b, b, b, b⟩ = ⟨b, b, b, b, b, b, b⟩ := by simp [henc, parity]
  rw [← hcode, hdec_henc]

theorem eq_constant_of_forall_mem {b : Bit} {w : Codeword} (h : ∀ x ∈ bitsOfWord w, x = b) :
    w = ⟨b, b, b, b, b, b, b⟩ := by
  cases w
  simpa [bitsOfWord] using h

/-- A body of equal bits decodes to that bit throughout (R103). -/
theorem decodeWords_constant {ws : List Codeword} {b : Bit}
    (h : ws.flatMap bitsOfWord = List.replicate (7 * ws.length) b) :
    decodeWords ws = List.replicate (4 * ws.length) b := by
  refine List.eq_replicate_iff.2 ⟨decodeWords_length ws, fun x hx => ?_⟩
  obtain ⟨w, hw, hxw⟩ := List.mem_flatMap.1 hx
  have hbits : ∀ y ∈ bitsOfWord w, y = b := fun y hy =>
    List.eq_of_mem_replicate (h ▸ List.mem_flatMap.2 ⟨w, hw, hy⟩)
  rw [eq_constant_of_forall_mem hbits, hdec_constant] at hxw
  simpa [bitsOfBlock] using hxw

/-! ## The statements -/

/-- Settles O15: the frame is built from the codewords of the payload's blocks, and both are read by index. -/
theorem fencEncodesBlocksInOrder : Obligations.FencEncodesBlocksInOrder := by
  intro p s hp
  refine ⟨_, by rw [exec_fenc, responseOf_fenc_aligned hp, issue], ?_, built_frame_header _, built_frame_terminator _,
    fun i hi => ?_⟩
  · rw [built_frame_length, List.length_map, blocksOf_length hp]
  · have hb := List.getElem?_eq_getElem (l := blocksOf p) (i := i) (by rwa [blocksOf_length hp])
    refine ⟨_, blockOfBits_eq_some.2 (slice_payload hp hb), slice_built_frame ?_⟩
    rw [List.getElem?_map, hb, Option.map_some]

/-- Settles O25: HEADER, any words and TERMINATOR pass every test, so the run ends in DONE with the words decoded. -/
theorem fdecAcceptsAnyBody : Obligations.FdecAcceptsAnyBody := by
  intro ws s hb ht
  have hresp := responseOf_fdec_legal (built_frame_legal ws)
  rw [built_frame_words] at hresp
  refine ⟨_, _, decodeWords ws, run_fdec_legal ht (built_frame_legal ws) hb, rfl, ?_, decodeWords_length ws,
    fun b => decodeWords_constant⟩
  rw [issue_responses, hresp]
  rfl

/-- Settles O31: both runs take the steps of R101 and end with the response of the command. -/
theorem repeatedFdecAnswersTheSame : Obligations.RepeatedFdecAnswersTheSame := by
  intro f s s' hb ht hb' ht'
  obtain ⟨t, hrun, hresp, hidle⟩ := run_fdec_answers f ht hb
  obtain ⟨t', hrun', hresp', hidle'⟩ := run_fdec_answers f ht' hb'
  exact ⟨fdecSteps f, responseOf (.fdec f), t, t', hrun, hrun', hresp, hresp', responseOfAnswer_op .fdec _,
    hidle, hidle'⟩

/-- Settles O19: the start writes every register of R96 and leaves M as it was. -/
theorem fdecStartsInScanning : Obligations.FdecStartsInScanning := by
  intro f s hb
  exact ⟨s.m, by rw [exec_fdec_idle hb, startFrameDecoder]⟩

end Sys2Proof.Machine
end

section
/-! Commands, codes and packing (spec/30_encoding.md, spec/00_scope.md): when bits are a command, that encoder and
decoder are inverse, the packing of a sequence into a number, and the assembly form. -/

namespace Sys2Proof.Machine

/-! ## The op of a command and its operand -/

/-- Bits are too few for `op`, or `op` and an operand (R59). -/
theorem short_or_opBits_append (c : List Bit) : c.length < 2 ∨ ∃ op arg, c = opBits op ++ arg := by
  match c with
  | [] | [_] => simp
  | false :: false :: arg => exact .inr ⟨.henc, arg, rfl⟩
  | false :: true :: arg => exact .inr ⟨.hdec, arg, rfl⟩
  | true :: false :: arg => exact .inr ⟨.fenc, arg, rfl⟩
  | true :: true :: arg => exact .inr ⟨.fdec, arg, rfl⟩

@[simp] theorem opBits_length (op : Op) : (opBits op).length = 2 := by
  cases op <;> rfl

theorem opBits_injective {op op' : Op} (h : opBits op = opBits op') : op = op' := by
  cases op <;> cases op' <;> simp_all [opBits]

theorem decodeCommand_short {c : List Bit} (h : c.length < 2) : decodeCommand c = .rejected .noOp := by
  match c, h with
  | [], _ | [true], _ | [false], _ => rfl

@[simp] theorem decodeCommand_opBits_append (op : Op) (arg : List Bit) :
    decodeCommand (opBits op ++ arg) = commandOf op arg := by
  cases op <;> rfl

/-- A sequence is no data block exactly where it is not 4 bits (R47). -/
theorem blockOfBits_eq_none {s : List Bit} : blockOfBits s = none ↔ s.length ≠ 4 := by
  constructor
  · rintro h h4
    match s, h4 with
    | [_, _, _, _], _ => cases h
  · intro h
    refine Option.eq_none_iff_forall_ne_some.2 fun b hb => h ?_
    rw [blockOfBits_eq_some.1 hb, bitsOfBlock_length]

/-- A sequence is no word exactly where it is not 7 bits (R48). -/
theorem wordOfBits_eq_none {s : List Bit} : wordOfBits s = none ↔ s.length ≠ 7 := by
  constructor
  · rintro h h7
    match s, h7 with
    | [_, _, _, _, _, _, _], _ => cases h
  · intro h
    refine Option.eq_none_iff_forall_ne_some.2 fun w hw => h ?_
    rw [wordOfBits_eq_some.1 hw, bitsOfWord_length]

/-- A unit and an operand are the one command that has both. -/
theorem commandOf_eq_command {op : Op} {arg : List Bit} {i : Instr} :
    commandOf op arg = .command i ↔ i.op = op ∧ i.arg = arg := by
  constructor
  · intro h
    cases op with
    | henc =>
      cases hb : blockOfBits arg with
      | none => simp [commandOf, hb] at h
      | some d =>
        obtain rfl : Instr.henc d = i := by simpa [commandOf, hb] using h
        exact ⟨rfl, (blockOfBits_eq_some.1 hb).symm⟩
    | hdec =>
      cases hw : wordOfBits arg with
      | none => simp [commandOf, hw] at h
      | some r =>
        obtain rfl : Instr.hdec r = i := by simpa [commandOf, hw] using h
        exact ⟨rfl, (wordOfBits_eq_some.1 hw).symm⟩
    | fenc | fdec =>
      cases h
      exact ⟨rfl, rfl⟩
  · rintro ⟨rfl, rfl⟩
    cases i <;> rfl

/-- A unit and an operand are no command exactly where R33 gives the unit another width. -/
theorem commandOf_eq_rejected {op : Op} {arg : List Bit} {why : Reject} : commandOf op arg = .rejected why ↔
    (op = .henc ∧ arg.length ≠ 4 ∧ why = .hencWidth) ∨ (op = .hdec ∧ arg.length ≠ 7 ∧ why = .hdecWidth) := by
  cases op with
  | henc =>
    rw [← blockOfBits_eq_none]
    cases hb : blockOfBits arg <;> simp [commandOf, hb, eq_comm]
  | hdec =>
    rw [← wordOfBits_eq_none]
    cases hw : wordOfBits arg <;> simp [commandOf, hw, eq_comm]
  | fenc | fdec => simp [commandOf]

/-! ## Encoder and decoder -/

/-- The decoder answers a command exactly on that command's encoding (R59). -/
theorem decodeCommand_eq_command {c : List Bit} {i : Instr} : decodeCommand c = .command i ↔ encode i = c := by
  rcases short_or_opBits_append c with h | ⟨op, arg, rfl⟩
  · rw [decodeCommand_short h]
    refine iff_of_false nofun ?_
    rintro rfl
    rw [encode, List.length_append, opBits_length] at h
    omega
  · rw [decodeCommand_opBits_append, commandOf_eq_command, encode]
    refine ⟨by rintro ⟨rfl, rfl⟩; rfl, fun h => ?_⟩
    obtain ⟨hop, harg⟩ := List.append_inj h (by simp)
    exact ⟨opBits_injective hop, harg⟩

@[simp] theorem decodeCommand_encode (i : Instr) : decodeCommand (encode i) = .command i :=
  decodeCommand_eq_command.2 rfl

/-- The decoder's other answers, by their reasons (R33, R59; D4). -/
theorem decodeCommand_eq_rejected {c : List Bit} {why : Reject} : decodeCommand c = .rejected why ↔
    (c.length < 2 ∧ why = .noOp) ∨
    (2 ≤ c.length ∧ c.take 2 = [false, false] ∧ c.length ≠ 6 ∧ why = .hencWidth) ∨
    (2 ≤ c.length ∧ c.take 2 = [false, true] ∧ c.length ≠ 9 ∧ why = .hdecWidth) := by
  rcases short_or_opBits_append c with h | ⟨op, arg, rfl⟩
  · simp [decodeCommand_short h, h, Nat.not_le.2 h, eq_comm]
  · rw [decodeCommand_opBits_append, commandOf_eq_rejected]
    cases op <;> simp [opBits]

theorem commandWf_encode (i : Instr) : commandWf (encode i) = true := by
  cases i with
  | henc d => exact Sys2Proof.Laws.EncodePresentable.henc d
  | hdec r => exact Sys2Proof.Laws.EncodePresentable.hdec r
  | fenc p => exact Sys2Proof.Laws.EncodePresentable.fenc p
  | fdec f => exact Sys2Proof.Laws.EncodePresentable.fdec f

/-- What can be presented is what decodes to a command (R33). -/
theorem commandWf_iff {c : List Bit} : commandWf c = true ↔ ∃ i, decodeCommand c = .command i := by
  refine ⟨fun h => ?_, ?_⟩
  · cases hd : decodeCommand c with
    | command i => exact ⟨i, rfl⟩
    | rejected why =>
      rcases short_or_opBits_append c with hshort | ⟨op, arg, rfl⟩
      · match c, hshort with
        | [], _ | [true], _ | [false], _ => cases h
      · rw [decodeCommand_opBits_append, commandOf_eq_rejected] at hd
        rcases hd with ⟨rfl, hlen, -⟩ | ⟨rfl, hlen, -⟩
        · simp [opBits, commandWf, Config.K, hlen] at h
        · simp [opBits, commandWf, Config.N, hlen] at h
  · rintro ⟨i, hi⟩
    rw [← decodeCommand_eq_command.1 hi]
    exact commandWf_encode i

/-! ## Packing -/

theorem foldl_packBits (v : Nat) (s : List Bit) :
    s.foldl (fun v b => 2 * v + b.toNat) v = 2 ^ s.length * v + packBits s := by
  induction s generalizing v with
  | nil => simp [packBits]
  | cons b s ih =>
    rw [packBits, List.foldl_cons, List.foldl_cons, ih, ih (2 * 0 + b.toNat), List.length_cons, Nat.pow_succ]
    ring

/-- The bit at index 0 is the most significant one (R13). -/
theorem packBits_cons (b : Bit) (s : List Bit) : packBits (b :: s) = 2 ^ s.length * b.toNat + packBits s := by
  rw [packBits, List.foldl_cons, foldl_packBits]
  simp

theorem packBits_lt (s : List Bit) : packBits s < 2 ^ s.length := by
  induction s with
  | nil => simp [packBits]
  | cons b s ih =>
    rw [packBits_cons, List.length_cons, Nat.pow_succ]
    cases b <;> simp <;> omega

/-- Bit `W-1-i` of the packed value is the bit at index `i` (R13, R35). -/
theorem testBit_packBits {s : List Bit} {i : Nat} (hi : i < s.length) :
    (packBits s).testBit (s.length - 1 - i) = s.getD i false := by
  induction s generalizing i with
  | nil => simp at hi
  | cons b s ih =>
    rw [packBits_cons, Nat.testBit_two_pow_mul_add _ (packBits_lt s)]
    cases i with
    | zero => cases b <;> simp
    | succ i =>
      have hi' : i < s.length := by simpa using hi
      rw [if_pos (by simp; omega), List.getD_cons_succ, ← ih hi']
      congr 1
      simp
      omega

@[simp] theorem unpackBits_length (n v : Nat) : (unpackBits n v).length = n := by
  induction n with
  | zero => rfl
  | succ n ih => rw [unpackBits, List.length_cons, ih]

theorem unpackBits_getD {n i : Nat} (v : Nat) (hi : i < n) :
    (unpackBits n v).getD i false = v.testBit (n - 1 - i) := by
  induction n generalizing i with
  | zero => omega
  | succ n ih =>
    cases i with
    | zero => rfl
    | succ i =>
      rw [unpackBits, List.getD_cons_succ, ih (by omega)]
      congr 1
      omega

/-- Unpacking gives the sequence back: both have the same bit at every index (R13). -/
theorem unpackBits_packBits (s : List Bit) : unpackBits s.length (packBits s) = s := by
  refine List.ext_getElem (unpackBits_length _ _) fun i hi hs => ?_
  have h := (unpackBits_getD (packBits s) hs).trans (testBit_packBits hs)
  rwa [List.getD_eq_getElem _ _ hi, List.getD_eq_getElem _ _ hs] at h

/-! ## The assembly form -/

/-- The digits of a sequence are read back (R67). -/
theorem bitsOfDigits_map (s : List Bit) : bitsOfDigits (s.map (fun b => if b then '1' else '0')) = some s := by
  induction s with
  | nil => rfl
  | cons b s ih => cases b <;> simp [bitsOfDigits, ih]

/-- The text of an operand is read back, the empty one included: no digit begins `<empty>` (R67). -/
theorem bitsOfText_textOfBits (s : List Bit) : bitsOfText (textOfBits s) = some s := by
  cases s with
  | nil => rfl
  | cons b s =>
    have hne : (b :: s).map (fun b => if b then '1' else '0') ≠ emptyText := by
      cases b <;> simp [emptyText]
    rw [textOfBits, if_neg (List.cons_ne_nil b s), bitsOfText, if_neg hne, bitsOfDigits_map]

/-- A line of a mnemonic and the text of an operand is that unit's command with that operand, where it is one. -/
theorem assemble_line {op : Op} {operand : List Char} {arg : List Bit} {i : Instr}
    (harg : bitsOfText operand = some arg) (hi : commandOf op arg = .command i) :
    assemble (mnemonic op ++ ' ' :: operand) = some i := by
  cases op <;> simp [assemble, mnemonic, opOfMnemonic, harg, hi]

/-! ## The statements -/

/-- Settles O9: both halves are the two directions of `decodeCommand_eq_command`. -/
theorem decodeAndEncodeAgree : Obligations.DecodeAndEncodeAgree :=
  ⟨decodeCommand_encode, fun _ _ => decodeCommand_eq_command.1⟩

/-- Settles O10: each reason is one case of `decodeCommand_eq_rejected`. -/
theorem decoderRejectsExactlyWhatCannotBePresented : Obligations.DecoderRejectsExactlyWhatCannotBePresented := by
  intro c
  refine ⟨?_, ?_, ?_, commandWf_iff.symm⟩ <;> simp [decodeCommand_eq_rejected]

/-- Settles O12: the bound, the bits by index and the way back. -/
theorem packingPutsIndexZeroFirst : Obligations.PackingPutsIndexZeroFirst :=
  ⟨fun s => ⟨packBits_lt s, unpackBits_packBits s, fun _ => testBit_packBits⟩, by decide, by decide⟩

/-- Settles O14: the operand's text and then the unit with its operand are read back. -/
theorem assemblyReadsBackItsCommand : Obligations.AssemblyReadsBackItsCommand := by
  intro i
  exact assemble_line (bitsOfText_textOfBits i.arg) (commandOf_eq_command.2 ⟨rfl, rfl⟩)

/-- Settles O11, each of the bits being the encoding of its command. -/
theorem sampleCommandsDecode : Obligations.SampleCommandsDecode :=
  ⟨decodeCommand_encode (.henc ⟨true, false, true, true⟩),
    decodeCommand_encode (.hdec ⟨true, true, true, false, false, true, true⟩),
    decodeCommand_encode (.fenc [true, false, true, true]), decodeCommand_encode (.fdec [true, false])⟩

/-- Settles O13, code by code. -/
theorem codesAreAsTabled : Obligations.CodesAreAsTabled := by
  refine ⟨rfl, by decide, fun op => ?_, rfl, fun st => ?_, fun s => ?_⟩
  · cases op <;> rfl
  · cases st <;> decide
  · unfold State.fstateOut fstateCode
    cases s.fstate <;> rfl

end Sys2Proof.Machine
end

section
/-! The machine (spec/10_state.md, spec/20_memory.md, spec/70_reset_and_hazards.md): everything one step can do, said
once as `Move`; that every step keeps the invariant, and what follows for responses, FSTATE and progress. -/

namespace Sys2Proof.Machine

/-! ## Everything a step can do -/

/-- What the hardware and the transport can do in one step, on the state with the turn used up. -/
inductive Move (s : State) : State → Prop
  /-- Nothing to do, or an FDEC command waits for a busy frame decoder (log 8, log 13). -/
  | wait : Move s s
  /-- SCANNING: the first test that fails raises its error (R97, R100). -/
  | reject (e : ErrorKind) : s.busy = true → s.fstate = .scanning → frameError s.frame = some e →
      Move s (raiseError .fdec e s)
  /-- SCANNING: every test passed (R97). -/
  | scan : s.busy = true → s.fstate = .scanning → frameError s.frame = none →
      Move s { s with m := wordCount s.frame, fstate := .decoding }
  /-- DECODING: the next word (R98). -/
  | word (w : Codeword) : s.busy = true → s.fstate = .decoding → s.j < s.m → readWord s.frame s.j = some w →
      Move s { s with out := s.out ++ bitsOfBlock (hdec w), j := s.j + 1 }
  /-- DECODING: no word left (R99). -/
  | finish : s.busy = true → s.fstate = .decoding → s.m ≤ s.j → Move s (finishFrameDecoder s)
  /-- The oldest waiting command is one of HENC, HDEC or FENC and is answered (R25). -/
  | answer (i : Instr) (rest : List (List Bit)) : i.op ≠ .fdec → s.waiting = encode i :: rest →
      Move s (issue (responseOf i) { s with waiting := rest })
  /-- The oldest waiting command is FDEC and the frame decoder is idle (R96). -/
  | start (f : List Bit) (rest : List (List Bit)) : s.waiting = encode (.fdec f) :: rest → s.busy = false →
      Move s (startFrameDecoder f { s with waiting := rest })

theorem move_of_workStep {s t : State} (h : workStep s = .next t) : Move s t := by
  rcases workStep_cases h with ⟨rfl, -⟩ | ⟨hb, hf, e, he, rfl⟩ | ⟨hb, hf, he, rfl⟩ | ⟨hb, hf, hj, w, hw, rfl⟩ |
    ⟨hb, hf, hj, rfl⟩
  · exact .wait
  · exact .reject e hb hf he
  · exact .scan hb hf he
  · exact .word w hb hf hj hw
  · exact .finish hb hf hj

theorem move_of_acceptNext {bound : Option Nat} {s t : State} (h : acceptNext bound s = .next t) : Move s t := by
  rcases acceptNext_cases h with ⟨-, rfl⟩ | ⟨c, rest, i, hw, hd, -, hx⟩
  · exact .wait
  · obtain rfl := decodeCommand_eq_command.1 hd
    rcases exec_cases hx with ⟨hi, rfl⟩ | ⟨f, rfl, hb, rfl⟩ | ⟨f, rfl, -, rfl⟩
    · exact .answer i rest hi hw
    · exact .start f rest hw hb
    · rw [keepWaiting, ← hw]
      exact .wait

/-- A step is a move of hardware and transport, or the host takes a response, or the host resets. -/
theorem step_move {s t : State} (h : step s = .next t) : ∃ ts, Move { s with turns := ts } t ∨
    (∃ k, s.turns = .take k :: ts ∧ t = takeResponse k { s with turns := ts }) ∨
    (s.turns = .rst :: ts ∧ t = resetEvent { s with turns := ts }) := by
  obtain ⟨s₀, ⟨ts, rfl⟩, hwork | haccept | ⟨k, ts', hts, hs₀, ht⟩ | ⟨ts', hts, hs₀, ht⟩⟩ := step_cases h
  · exact ⟨ts, .inl (move_of_workStep hwork)⟩
  · exact ⟨ts, .inl (move_of_acceptNext haccept)⟩
  · exact ⟨ts', .inr (.inl ⟨k, hts, hs₀ ▸ ht⟩)⟩
  · exact ⟨ts', .inr (.inr ⟨hts, hs₀ ▸ ht⟩)⟩

/-- A move leaves the waiting commands, or takes the oldest one. -/
theorem Move.waiting_subset {s t : State} (h : Move s t) : t.waiting ⊆ s.waiting := by
  cases h with
  | wait | reject | scan | word | finish => exact List.Subset.refl _
  | answer i rest _ hw | start f rest hw _ => exact hw ▸ List.subset_cons_self _ rest

/-- No step adds a waiting command. -/
theorem step_waiting_subset {s t : State} (h : step s = .next t) : t.waiting ⊆ s.waiting := by
  obtain ⟨ts, hmove | ⟨k, -, rfl⟩ | ⟨-, rfl⟩⟩ := step_move h
  · exact hmove.waiting_subset
  · exact List.Subset.refl _
  · exact List.Subset.refl _

/-! ## The responses the hardware can issue -/

/-- The response of every command is one its unit can issue (R33, R87, R110, R113). -/
theorem responseOf_wf (i : Instr) : (responseOf i).wf = true := by
  cases i with
  | henc d => rfl
  | hdec r => rfl
  | fenc p =>
    by_cases hp : p.length % 4 = 0
    · rw [responseOf_fenc_aligned hp]
      exact beq_iff_eq.2 (built_frame_legal _)
    · simp [responseOf, responseOfAnswer, wrap_misaligned hp, statusOf, Response.wf]
  | fdec f =>
    cases he : frameError f with
    | none => simp [responseOf_fdec_legal he, Response.wf]
    | some e => cases e <;> simp [responseOf_fdec_illegal he, statusOf, Response.wf]

/-- In DECODING, once no word is left, OUT is the whole plaintext (R98, R99). -/
theorem decoded_all {s : State} (h : frameDecoderInv s) (hf : s.fstate = .decoding) (hj : s.m ≤ s.j) :
    frameError s.frame = none ∧ s.m = wordCount s.frame ∧ s.j = s.m ∧
      s.out = decodeWords (wordsOf (bodyOf s.frame)) := by
  obtain ⟨-, -, hlegal, hm, hjm, hout⟩ := h.2.1 hf
  have hall : (wordsOf (bodyOf s.frame)).length ≤ s.j := by rw [wordsOf_bodyOf_length hlegal, ← hm]; exact hj
  exact ⟨hlegal, hm, Nat.le_antisymm hjm hj, by rw [hout, List.take_of_length_le hall]⟩

/-- The response at the end of DECODING is that of the command (R99, R101). -/
theorem response_of_finish {s : State} (h : frameDecoderInv s) (hf : s.fstate = .decoding) (hj : s.m ≤ s.j) :
    (⟨.fdec, .ok, s.out⟩ : Response) = responseOf (.fdec s.frame) := by
  obtain ⟨hlegal, -, -, hout⟩ := decoded_all h hf hj
  rw [responseOf_fdec_legal hlegal, hout]

/-! ## The invariant -/

/-- The word a DECODING step reads is in the frame: no index outside it is read (R31). -/
theorem next_word {s : State} (h : frameDecoderInv s) (hf : s.fstate = .decoding) (hj : s.j < s.m) :
    ∃ w, (wordsOf (bodyOf s.frame))[s.j]? = some w ∧ readWord s.frame s.j = some w := by
  obtain ⟨-, -, hlegal, hm, -, -⟩ := h.2.1 hf
  have hw := List.getElem?_eq_getElem (l := wordsOf (bodyOf s.frame)) (i := s.j)
    (by rw [wordsOf_bodyOf_length hlegal, ← hm]; exact hj)
  exact ⟨_, hw, readWord_legal_frame hlegal hw⟩

/-- The part of the invariant about the frame decoder's registers (R22, R23). -/
theorem Move.keeps_frameDecoderInv {s t : State} (h : Move s t) (hs : frameDecoderInv s) : frameDecoderInv t := by
  cases h with
  | wait => exact hs
  | reject e hb hf he =>
    obtain ⟨hj, hout, -⟩ := hs.1 hf
    simp [frameDecoderInv, he, hj, hout]
  | scan hb hf he =>
    obtain ⟨hj, hout, hcause⟩ := hs.1 hf
    simp [frameDecoderInv, hb, he, hj, hout, hcause]
  | word w hb hf hj hw =>
    obtain ⟨-, hcause, hlegal, hm, -, hout⟩ := hs.2.1 hf
    obtain ⟨w', hw', hread⟩ := next_word hs hf hj
    obtain rfl : w' = w := Option.some.inj (hread.symm.trans hw)
    have hj' : s.j + 1 ≤ wordCount s.frame := hm ▸ hj
    simp [frameDecoderInv, hf, hb, hcause, hlegal, hm, hj', hout, decodeWords_take_succ hw']
  | finish hb hf hj =>
    obtain ⟨hlegal, hm, hjm, hout⟩ := decoded_all hs hf hj
    obtain ⟨-, hcause, -⟩ := hs.2.1 hf
    simp [frameDecoderInv, hcause, hlegal, hm, hjm, hout]
  | answer i rest hi hw => exact hs
  | start f rest hw hb => simp [frameDecoderInv]

/-- A move issues no response or one that is some command's. -/
theorem Move.responses {s t : State} (h : Move s t) (hs : frameDecoderInv s) :
    t.responses = s.responses ∨ ∃ i, t.responses = s.responses ++ [responseOf i] := by
  cases h with
  | wait | scan | word | start => exact .inl rfl
  | reject e hb hf he => exact .inr ⟨.fdec s.frame, by rw [responseOf_fdec_illegal he]; rfl⟩
  | finish hb hf hj => exact .inr ⟨.fdec s.frame, by rw [← response_of_finish hs hf hj]; rfl⟩
  | answer i rest hi hw => exact .inr ⟨i, rfl⟩

theorem Move.keeps_invariant {s t : State} (h : Move s t) (hs : Invariant s) : Invariant t := by
  obtain ⟨hdec, hresp⟩ := hs
  refine ⟨h.keeps_frameDecoderInv hdec, ?_⟩
  rcases h.responses hdec with ht | ⟨i, ht⟩
  · exact ht ▸ hresp
  · rw [ht]
    intro r hr
    rcases List.mem_append.1 hr with hr | hr
    · exact hresp r hr
    · exact List.mem_singleton.1 hr ▸ responseOf_wf i

/-! ## Progress -/

/-- Whose turn it is: the first of `turns`, or the default (log 2). -/
def nextTurn (s : State) : Turn := s.turns.head?.getD (defaultTurn s)

/-- A step is the move of the agent whose turn it is, on the state with the turn used up. -/
theorem stepAt_eq_takeTurn (bound : Option Nat) (s : State) :
    stepAt bound s = takeTurn bound (nextTurn s) { s with turns := s.turns.tail } := by
  cases s with | mk _ _ _ _ _ _ _ _ _ turns =>
  cases turns <;> rfl

/-- The frame decoder's step always answers a next state. -/
theorem workStep_next {s : State} (hs : frameDecoderInv s) : ∃ t, workStep s = .next t := by
  cases hb : s.busy with
  | false => exact ⟨s, workStep_idle (.inl hb)⟩
  | true =>
    cases hf : s.fstate with
    | scanning =>
      rw [workStep_scanning hb hf]
      cases he : frameError s.frame with
      | none => exact ⟨_, scanStep_legal he⟩
      | some e => exact ⟨_, scanStep_illegal he⟩
    | decoding =>
      rw [workStep_decoding hb hf]
      rcases Nat.lt_or_ge s.j s.m with hj | hj
      · obtain ⟨w, -, hw⟩ := next_word hs hf hj
        exact ⟨_, decodeStep_word hj hw⟩
      · exact ⟨_, decodeStep_end hj⟩
    | done => exact ⟨s, workStep_idle (.inr (.inl hf))⟩
    | rejected => exact ⟨s, workStep_idle (.inr (.inr hf))⟩

/-- Where only commands wait, accepting answers a next state. -/
theorem acceptNext_next {s : State} (hs : Presentable s) : ∃ t, acceptNext Config.maxBits s = .next t := by
  cases hw : s.waiting with
  | nil => exact ⟨s, by rw [acceptNext, hw]⟩
  | cons c rest =>
    obtain ⟨i, hi⟩ := commandWf_iff.1 (hs c (hw ▸ List.mem_cons_self))
    rw [acceptNext_command hw hi (wf_unbounded i)]
    exact exec_next i _

theorem step_next {s : State} (hs : Invariant s) (hp : Presentable s) : ∃ t, step s = .next t := by
  rw [step, stepAt_eq_takeTurn]
  cases nextTurn s with
  | accept => exact acceptNext_next hp
  | work => exact workStep_next hs.1
  | take k => exact ⟨_, rfl⟩
  | rst => exact ⟨_, rfl⟩

/-! ## The statements -/

/-- Settles O44: a move keeps it, the host takes responses away, and a reset leads to the reset values. -/
theorem stepKeepsTheInvariant : Obligations.StepKeepsTheInvariant := by
  intro s t hs h
  obtain ⟨ts, hmove | ⟨k, -, rfl⟩ | ⟨-, rfl⟩⟩ := step_move h
  · exact hmove.keeps_invariant hs
  · exact ⟨hs.1, fun r hr => hs.2 r (List.mem_of_mem_eraseIdx hr)⟩
  · simp [Invariant, frameDecoderInv]

/-- Settles O45: every agent's turn has a next state, and no step adds a waiting command. -/
theorem presentedCommandsNeverStopTheMachine : Obligations.PresentedCommandsNeverStopTheMachine := by
  intro s hs hp
  obtain ⟨t, ht⟩ := step_next hs hp
  exact ⟨t, ht, fun c hc => hp c (step_waiting_subset ht hc)⟩

/-- Settles O47: the moves that issue a response are `answer`, `reject` and `finish`. -/
theorem issuedResponsesDependOnTheCommandOnly : Obligations.IssuedResponsesDependOnTheCommandOnly := by
  intro s t hs h
  obtain ⟨ts, hmove | ⟨k, hts, rfl⟩ | ⟨hts, rfl⟩⟩ := step_move h
  · cases hmove with
    | wait | scan | word | start => exact .inl rfl
    | answer i rest hi hw => exact .inr (.inr (.inr (.inl ⟨i, hi, hw, rfl⟩)))
    | reject e hb hf he =>
      refine .inr (.inr (.inr (.inr ⟨hb, rfl, ?_⟩)))
      rw [responseOf_fdec_illegal he]
      cases e <;> simp [statusOf]
    | finish hb hf hj =>
      have hresp : (⟨.fdec, .ok, s.out⟩ : Response) = responseOf (.fdec s.frame) := response_of_finish hs.1 hf hj
      refine .inr (.inr (.inr (.inr ⟨hb, rfl, ?_⟩)))
      rw [← hresp]
      simp
  · exact .inr (.inl ⟨k, ts, hts, rfl⟩)
  · exact .inr (.inr (.inl ⟨ts, hts, rfl⟩))

/-- Settles O42: of the moves that write FSTATE, `start` finds it in DONE, REJECTED or SCANNING, since the frame
decoder is idle. -/
theorem fstateMovesOnlyAsTabled : Obligations.FstateMovesOnlyAsTabled := by
  intro s t hs h hne
  obtain ⟨ts, hmove | ⟨k, -, rfl⟩ | ⟨hts, rfl⟩⟩ := step_move h
  · cases hmove with
    | wait | word | answer => exact absurd rfl hne
    | reject e hb hf he => exact .inr (.inl ⟨hf, rfl⟩)
    | scan hb hf he => exact .inl ⟨hf, rfl⟩
    | finish hb hf hj => exact .inr (.inr (.inl ⟨hf, rfl⟩))
    | start f rest hw hb =>
      have hidle : s.fstate = .done ∨ s.fstate = .rejected := by
        cases hf : s.fstate with
        | scanning => exact absurd hf hne
        | decoding => exact absurd ((hs.1.2.1 hf).1.symm.trans hb) (by decide)
        | done => exact .inl rfl
        | rejected => exact .inr rfl
      exact .inr (.inr (.inr (.inr ⟨hidle, rfl, hb, rfl, hw⟩)))
  · exact absurd rfl hne
  · exact .inr (.inr (.inr (.inl ⟨rfl, ts, hts⟩)))

/-- Settles O43, from the values of R27. -/
theorem invariantHoldsAtReset : Obligations.InvariantHoldsAtReset := by
  simp [Obligations.InvariantHoldsAtReset, Invariant, frameDecoderInv, State.reset]

end Sys2Proof.Machine
end

section
/-! The transport and the order of moves (spec/20_memory.md, spec/70_reset_and_hazards.md): whose turn it is, one named
turn each, and several bounded or independent machines. -/

namespace Sys2Proof.Machine

/-! ## The turn to accept -/

/-- The oldest waiting command is offered by a named turn, or by default with no operation in progress (log 2). -/
theorem nextTurn_eq_accept {s : State} :
    nextTurn s = .accept ↔ (∃ ts, s.turns = .accept :: ts) ∨ (s.turns = [] ∧ s.busy = false) := by
  unfold nextTurn defaultTurn
  cases s.turns <;> cases s.busy <;> simp

theorem stepAt_accept {bound : Option Nat} {s : State} (h : nextTurn s = .accept) :
    stepAt bound s = acceptNext bound { s with turns := s.turns.tail } := by
  rw [stepAt_eq_takeTurn, h]
  rfl

theorem step_accept_command {s : State} {c : List Bit} {rest : List (List Bit)} {i : Instr} (h : nextTurn s = .accept)
    (hw : s.waiting = c :: rest) (hd : decodeCommand c = .command i) :
    step s = exec i { s with waiting := rest, turns := s.turns.tail } := by
  rw [step, stepAt_accept h,
    acceptNext_command (s := { s with turns := s.turns.tail }) hw hd (wf_unbounded i)]

theorem acceptNext_rejected {bound : Option Nat} {s : State} {c : List Bit} {rest : List (List Bit)} {why : Reject}
    (hw : s.waiting = c :: rest) (hd : decodeCommand c = .rejected why) :
    acceptNext bound s = .refused (.notPresentable why) := by
  simp [acceptNext, hw, hd]

/-! ## Bounded machines -/

theorem wf_bounded_iff {b : Nat} {i : Instr} :
    i.wf (some b) = true ↔ ¬((i.op = .fenc ∨ i.op = .fdec) ∧ b < i.arg.length) := by
  cases i <;> simp [Instr.wf, Instr.op, Instr.arg, withinBound]

theorem acceptNext_tooLong {bound : Option Nat} {s : State} {c : List Bit} {rest : List (List Bit)} {i : Instr}
    (hw : s.waiting = c :: rest) (hd : decodeCommand c = .command i) (hi : i.wf bound = false) :
    acceptNext bound s = .refused .operandTooLong := by
  simp [acceptNext, hw, hd, hi]

/-- Where the bound allows the oldest waiting command, accepting is that of the unbounded machine (R36). -/
theorem acceptNext_within {bound : Option Nat} {s : State}
    (h : ∀ c rest i, s.waiting = c :: rest → decodeCommand c = .command i → i.wf bound = true) :
    acceptNext bound s = acceptNext Config.maxBits s := by
  cases hw : s.waiting with
  | nil => simp [acceptNext, hw]
  | cons c rest =>
    cases hd : decodeCommand c with
    | rejected why => rw [acceptNext_rejected hw hd, acceptNext_rejected hw hd]
    | command i =>
      rw [acceptNext_command hw hd (h c rest i hw hd), acceptNext_command hw hd (wf_unbounded i)]

/-- Only accepting looks at the bound. -/
theorem takeTurn_bound {a : Turn} (h : a ≠ .accept) (bound bound' : Option Nat) (s : State) :
    takeTurn bound a s = takeTurn bound' a s := by
  cases a with
  | accept => exact absurd rfl h
  | work | take | rst => rfl

/-! ## The statements -/

/-- Settles O36: the turn to accept, named or by default, is `step_accept_command`. -/
theorem stepRunsTheDecodedInstruction : Obligations.StepRunsTheDecodedInstruction := by
  intro s c rest i hw hd
  refine ⟨fun ts hts => ?_, fun hts hb => ?_⟩
  · rw [step_accept_command (nextTurn_eq_accept.2 (.inl ⟨ts, hts⟩)) hw hd, hts, List.tail_cons]
  · rw [step_accept_command (nextTurn_eq_accept.2 (.inr ⟨hts, hb⟩)) hw hd, hts, List.tail_nil, ← hts]

/-- Settles O37: accepting refuses the bits with the decoder's reason. -/
theorem stepRefusesWhatCannotBePresented : Obligations.StepRefusesWhatCannotBePresented := by
  intro s c rest why hw hd hturn
  rw [step, stepAt_accept (nextTurn_eq_accept.2 hturn)]
  exact acceptNext_rejected (s := { s with turns := s.turns.tail }) hw hd

/-- Settles O52: the bound is looked at only by accepting, and there only where the operand is too long. -/
theorem boundedInstanceRefusesOnlyLongOperands : Obligations.BoundedInstanceRefusesOnlyLongOperands := by
  intro b s offersTooLong
  refine ⟨?_, fun hfits => ?_⟩
  · rintro ⟨hturn, c, rest, i, hw, hd, hlong⟩
    have hi : i.wf (some b) = false := Bool.eq_false_iff.2 fun h => wf_bounded_iff.1 h hlong
    rw [stepAt_accept (nextTurn_eq_accept.2 hturn)]
    exact acceptNext_tooLong (s := { s with turns := s.turns.tail }) hw hd hi
  · by_cases hturn : nextTurn s = .accept
    · rw [step, stepAt_accept hturn, stepAt_accept hturn]
      refine acceptNext_within fun c rest i hw hd => wf_bounded_iff.2 fun hlong => hfits ?_
      exact ⟨nextTurn_eq_accept.1 hturn, c, rest, i, hw, hd, hlong⟩
    · rw [step, stepAt_eq_takeTurn, stepAt_eq_takeTurn]
      exact takeTurn_bound hturn _ _ _

/-- Settles O53, by the step's outcome. -/
theorem instancesAreIndependent : Obligations.InstancesAreIndependent := by
  intro k bank s hk
  have hlt : k < bank.length := (List.getElem?_eq_some_iff.1 hk).1
  refine ⟨fun t ht => ⟨bank.set k t, ?_, List.length_set, ?_, fun n hn => ?_⟩, fun r hr => ?_, fun r hr => ?_⟩
  · simp [stepInstance, hk, ht]
  · rw [List.getElem?_set_self hlt]
  · rw [List.getElem?_set_ne hn.symm]
  · simp [stepInstance, hk, hr]
  · simp [stepInstance, hk, hr]

/-- Settles O38, field by field. -/
theorem resetStateIsAsTabled : Obligations.ResetStateIsAsTabled :=
  ⟨rfl, rfl, rfl, rfl, rfl, rfl, rfl⟩

/-- Settles O39: the named turn is the reset event on the state with the turn used up. -/
theorem resetEventAbandonsTheOperation : Obligations.ResetEventAbandonsTheOperation := by
  intro s ts hts
  exact ⟨resetEvent { s with turns := ts }, step_turn hts, rfl, rfl, rfl, rfl, rfl, rfl, rfl, rfl⟩

/-- Settles O40: by default the transport moves, and nothing waits in it. -/
theorem idleHardwareWaits : Obligations.IdleHardwareWaits := by
  intro s hts hb hw
  rw [step_no_turns hts, hb, if_neg Bool.false_ne_true, acceptNext, hw]

/-- Settles O41: erasing at the length of what stands before takes just the response away. -/
theorem takingAResponseChangesNothingElse : Obligations.TakingAResponseChangesNothingElse := by
  intro s ts before after r hts hr
  have herase : s.responses.eraseIdx before.length = before ++ after := by
    rw [hr, List.eraseIdx_append_of_length_le (Nat.le_refl _), Nat.sub_self, List.eraseIdx_cons_zero]
  rw [step_turn hts, ← herase]
  rfl

/-- Settles O23: without an enabled step the frame decoder's turn is used up and nothing else. -/
theorem terminalStatesHaveNoStep : Obligations.TerminalStatesHaveNoStep := by
  intro s ts hf hts
  rw [step_turn hts]
  exact workStep_idle (s := { s with turns := ts }) (.inr hf)

/-- Settles O20: the command goes back to the head of the transport in its encoding. -/
theorem fdecWaitsForABusyDecoder : Obligations.FdecWaitsForABusyDecoder :=
  fun f _ hb => exec_fdec_busy hb f

end Sys2Proof.Machine
end

section
/-! Operations and commands across steps (spec/20_memory.md R42; spec/70_reset_and_hazards.md R129, R134): an operation
in progress ends, every offered command is answered, and what the units do not share. -/

namespace Sys2Proof.Machine

/-! ## An operation in progress -/

/-- One undisturbed step of an operation in progress: the end is one step nearer, and the response of the command is
issued exactly where the operation ends (R97 to R100, R101). -/
theorem step_in_progress {s : State} (hs : frameDecoderInv s) (hts : s.turns = []) (hb : s.busy = true) :
    ∃ t, step s = .next t ∧ frameDecoderInv t ∧ remainingSteps t + 1 = remainingSteps s ∧
      t.frame = s.frame ∧ t.waiting = s.waiting ∧ t.turns = [] ∧
      (t.busy = true ∧ t.responses = s.responses ∨
        t.busy = false ∧ t.responses = s.responses ++ [responseOf (.fdec s.frame)]) := by
  obtain ⟨t, ht⟩ := workStep_next hs
  refine ⟨t, by rw [step_no_turns hts, if_pos hb, ht], (move_of_workStep ht).keeps_frameDecoderInv hs, ?_⟩
  rcases workStep_cases ht with ⟨rfl, hb' | hf | hf⟩ | ⟨-, hf, e, he, rfl⟩ | ⟨-, hf, he, rfl⟩ |
    ⟨-, hf, hj, w, -, rfl⟩ | ⟨-, hf, hj, rfl⟩
  · exact absurd (hb.symm.trans hb') (by decide)
  · exact absurd (hb.symm.trans (hs.2.2.1 hf).1) (by decide)
  · exact absurd (hb.symm.trans (hs.2.2.2 hf).1) (by decide)
  · refine ⟨by simp [remainingSteps, hb, hf, he], rfl, rfl, hts, .inr ⟨rfl, ?_⟩⟩
    rw [responseOf_fdec_illegal he, raiseError_fdec_responses]
  · obtain ⟨hj, -, -⟩ := hs.1 hf
    exact ⟨by simp [remainingSteps, hb, hf, he, hj], rfl, rfl, hts, .inl ⟨hb, rfl⟩⟩
  · refine ⟨?_, rfl, rfl, hts, .inl ⟨hb, rfl⟩⟩
    simp only [remainingSteps, hb, hf, if_true]
    omega
  · refine ⟨by simp [remainingSteps, hb, hf, Nat.sub_eq_zero_of_le hj], rfl, rfl, hts, .inr ⟨rfl, ?_⟩⟩
    rw [← response_of_finish hs hf hj, finishFrameDecoder_responses]

/-- Undisturbed, the operation ends after exactly its remaining steps with the response of its command (R101, R134). -/
theorem runSteps_in_progress {s : State} (hs : frameDecoderInv s) (hts : s.turns = []) (hb : s.busy = true) :
    ∃ t, runSteps (remainingSteps s) s = .next t ∧ t.busy = false ∧ t.turns = [] ∧ t.waiting = s.waiting ∧
      t.responses = s.responses ++ [responseOf (.fdec s.frame)] := by
  obtain ⟨n, hn⟩ : ∃ n, remainingSteps s = n := ⟨_, rfl⟩
  induction n generalizing s with
  | zero =>
    obtain ⟨t, -, -, hrem, -⟩ := step_in_progress hs hts hb
    omega
  | succ n ih =>
    obtain ⟨t, ht, hinv, hrem, hframe, hwait, htts, ⟨htb, hresp⟩ | ⟨htb, hresp⟩⟩ := step_in_progress hs hts hb
    · obtain ⟨u, hu, hub, huts, huwait, huresp⟩ := ih hinv htts htb (by omega)
      refine ⟨u, ?_, hub, huts, huwait.trans hwait, by rw [huresp, hresp, hframe]⟩
      rwa [← hrem, runSteps_succ ht]
    · have hend : remainingSteps t = 0 := by simp [remainingSteps, htb]
      exact ⟨t, by rw [← hrem, runSteps_succ ht, hend, runSteps_zero], htb, htts, hwait, hresp⟩

/-- An idle machine answers the oldest waiting command, each unit with the response of that command alone. -/
theorem runSteps_oldest_command {s : State} {i : Instr} {rest : List (List Bit)} (hb : s.busy = false)
    (hts : s.turns = []) (hw : s.waiting = encode i :: rest) :
    ∃ n t, runSteps n s = .next t ∧ t.busy = false ∧ t.turns = [] ∧ t.waiting = rest ∧
      t.responses = s.responses ++ [responseOf i] := by
  have hstep := step_accept_command (nextTurn_eq_accept.2 (.inr ⟨hts, hb⟩)) hw (decodeCommand_encode i)
  rw [hts, List.tail_nil] at hstep
  by_cases hi : i.op = .fdec
  · cases i with
    | henc | hdec | fenc => cases hi
    | fdec f =>
      rw [exec_fdec_idle (s := { s with waiting := rest, turns := [] }) hb] at hstep
      obtain ⟨t, hrun, ht⟩ := runSteps_in_progress
        (s := startFrameDecoder f { s with waiting := rest, turns := [] }) (by simp [frameDecoderInv]) rfl rfl
      exact ⟨_, t, (runSteps_succ hstep _).trans hrun, ht⟩
  · rw [exec_atomic hi] at hstep
    exact ⟨1, _, (runSteps_succ hstep 0).trans (runSteps_zero _), hb, rfl, rfl, rfl⟩

/-! ## The frame decoder and the other units -/

/-- A step of the frame decoder reads no response: it appends the same ones to any list of them. -/
theorem workStep_responses {s t : State} (h : workStep s = .next t) : ∃ new, t.responses = s.responses ++ new ∧
    ∀ rs, workStep { s with responses := rs } = .next { t with responses := rs ++ new } := by
  rcases workStep_cases h with ⟨rfl, hidle⟩ | ⟨hb, hf, e, he, rfl⟩ | ⟨hb, hf, he, rfl⟩ | ⟨hb, hf, hj, w, hw, rfl⟩ |
    ⟨hb, hf, hj, rfl⟩
  · refine ⟨[], (List.append_nil _).symm, fun rs => ?_⟩
    rw [List.append_nil]
    exact workStep_idle (s := { t with responses := rs }) hidle
  · refine ⟨_, rfl, fun rs => ?_⟩
    exact (workStep_scanning (s := { s with responses := rs }) hb hf).trans (scanStep_illegal he)
  · refine ⟨[], (List.append_nil _).symm, fun rs => ?_⟩
    rw [List.append_nil]
    exact (workStep_scanning (s := { s with responses := rs }) hb hf).trans (scanStep_legal he)
  · refine ⟨[], (List.append_nil _).symm, fun rs => ?_⟩
    rw [List.append_nil]
    exact (workStep_decoding (s := { s with responses := rs }) hb hf).trans (decodeStep_word hj hw)
  · refine ⟨_, rfl, fun rs => ?_⟩
    exact (workStep_decoding (s := { s with responses := rs }) hb hf).trans (decodeStep_end hj)

/-! ## FRAME and M are read only by the operation that set them -/

/-- `s` with other values of FRAME and M. -/
def withFrameAndCount (frame : List Bit) (m : Nat) (s : State) : State := { s with frame := frame, m := m }

/-- No step from `s` reads the difference: no operation is in progress, or it is in SCANNING with the same FRAME, or
there is no difference (R26, U9). -/
def Unread (frame : List Bit) (m : Nat) (s : State) : Prop :=
  s.busy = false ∨ (s.fstate = .scanning ∧ frame = s.frame) ∨ (frame = s.frame ∧ m = s.m)

section Unread

variable {frame : List Bit} {m : Nat} {s t : State} (hu : Unread frame m s)

include hu

theorem exec_unread {i : Instr} (h : exec i s = .next t) :
    ∃ frame' m', exec i (withFrameAndCount frame m s) = .next (withFrameAndCount frame' m' t) ∧
      Unread frame' m' t := by
  rcases exec_cases h with ⟨hi, rfl⟩ | ⟨f, rfl, hb, rfl⟩ | ⟨f, rfl, hb, rfl⟩
  · exact ⟨frame, m, exec_atomic hi _, hu⟩
  · exact ⟨f, m, exec_fdec_idle (s := withFrameAndCount frame m s) hb f, .inr (.inl ⟨rfl, rfl⟩)⟩
  · exact ⟨frame, m, exec_fdec_busy (s := withFrameAndCount frame m s) hb f, hu⟩

theorem workStep_unread (h : workStep s = .next t) :
    ∃ frame' m', workStep (withFrameAndCount frame m s) = .next (withFrameAndCount frame' m' t) ∧
      Unread frame' m' t := by
  cases hb : s.busy with
  | false =>
    obtain rfl : s = t := by simpa [workStep_idle (.inl hb)] using h
    exact ⟨frame, m, workStep_idle (s := withFrameAndCount frame m s) (.inl hb), .inl hb⟩
  | true =>
    rcases hu with hb' | ⟨hf, rfl⟩ | ⟨rfl, rfl⟩
    · exact absurd (hb.symm.trans hb') (by decide)
    · rw [workStep_scanning hb hf] at h
      rw [workStep_scanning (s := withFrameAndCount s.frame m s) hb hf]
      cases he : frameError s.frame with
      | none =>
        rw [scanStep_legal he] at h
        cases h
        exact ⟨s.frame, wordCount s.frame, scanStep_legal (s := withFrameAndCount s.frame m s) he,
          .inr (.inr ⟨rfl, rfl⟩)⟩
      | some e =>
        rw [scanStep_illegal he] at h
        cases h
        exact ⟨s.frame, m, scanStep_illegal (s := withFrameAndCount s.frame m s) he, .inl rfl⟩
    · exact ⟨t.frame, t.m, h, .inr (.inr ⟨rfl, rfl⟩)⟩

theorem acceptNext_unread {bound : Option Nat} (h : acceptNext bound s = .next t) :
    ∃ frame' m', acceptNext bound (withFrameAndCount frame m s) = .next (withFrameAndCount frame' m' t) ∧
      Unread frame' m' t := by
  rcases acceptNext_cases h with ⟨hw, rfl⟩ | ⟨c, rest, i, hw, hd, hi, hx⟩
  · exact ⟨frame, m, by simp [acceptNext, withFrameAndCount, hw], hu⟩
  · rw [acceptNext_command (s := withFrameAndCount frame m s) hw hd hi]
    exact exec_unread (s := { s with waiting := rest }) hu hx

theorem takeTurn_unread {bound : Option Nat} {a : Turn} (h : takeTurn bound a s = .next t) :
    ∃ frame' m', takeTurn bound a (withFrameAndCount frame m s) = .next (withFrameAndCount frame' m' t) ∧
      Unread frame' m' t := by
  cases a with
  | accept => exact acceptNext_unread hu h
  | work => exact workStep_unread hu h
  | take k =>
    cases h
    exact ⟨frame, m, rfl, hu⟩
  | rst =>
    cases h
    exact ⟨[], 0, rfl, .inl rfl⟩

end Unread

/-! ## The statements -/

/-- Settles O46: the step and the run of an operation in progress. -/
theorem operationInProgressAlwaysEnds : Obligations.OperationInProgressAlwaysEnds := by
  intro s hs hts hb
  obtain ⟨t, hrun, htb, -, hwait, hresp⟩ := runSteps_in_progress hs.1 hts hb
  obtain ⟨u, hu, -, hrem, -⟩ := step_in_progress hs.1 hts hb
  exact ⟨⟨t, hrun, htb, hresp, hwait⟩, u, hu, hrem⟩

/-- Settles O48, by induction on the list of commands. -/
theorem everyOfferedCommandIsAnswered : Obligations.EveryOfferedCommandIsAnswered := by
  intro is
  induction is with
  | nil => exact fun s hb _ hw => ⟨0, s, runSteps_zero s, hw, hb, (List.append_nil _).symm⟩
  | cons i is ih =>
    intro s hb hts hw
    obtain ⟨n, t, ht, htb, htts, htw, hresp⟩ := runSteps_oldest_command hb hts hw
    obtain ⟨k, u, hu, huw, hub, huresp⟩ := ih t htb htts htw
    refine ⟨n + k, u, (runSteps_add ht k).trans hu, huw, hub, ?_⟩
    rw [huresp, hresp, List.append_assoc, List.map_cons, List.singleton_append]

/-- Settles O49: the moves of hardware and transport fall into the four cases, and each of these keeps the count. -/
theorem commandsAreNeverDropped : Obligations.CommandsAreNeverDropped := by
  intro s t h htake hrst
  refine (and_iff_left_of_imp fun hcases => ?count).2 ?cases
  case count =>
    rcases hcases with ⟨hw, hb, -, hr⟩ | ⟨i, -, hw, hb, -, hr⟩ | ⟨f, hw, hb, hb', -, hr⟩ | ⟨r, hb, hb', hw, hr, -⟩
    · rw [hw, hb, hr]
    · simp only [hw, hb, hr, List.length_append, List.length_cons, List.length_nil]
      omega
    · simp only [hw, hb, hb', hr, List.length_cons, Bool.toNat_true, Bool.toNat_false]
    · simp only [hw, hb, hb', hr, List.length_append, List.length_singleton, Bool.toNat_true, Bool.toNat_false]
      omega
  case cases =>
    obtain ⟨ts, hmove | ⟨k, hts, -⟩ | ⟨hts, -⟩⟩ := step_move h
    · cases hmove with
      | wait | scan | word => exact .inl ⟨rfl, rfl, rfl, rfl⟩
      | answer i rest hi hw => exact .inr (.inl ⟨i, hi, hw, rfl, rfl, rfl⟩)
      | start f rest hw hb => exact .inr (.inr (.inl ⟨f, hw, hb, rfl, rfl, rfl⟩))
      | reject e hb hf he =>
        exact .inr (.inr (.inr ⟨_, hb, rfl, rfl, rfl, rfl, fun _ => (responseOf_fdec_illegal he).symm⟩))
      | finish hb hf hj =>
        exact .inr (.inr (.inr ⟨_, hb, rfl, rfl, rfl, rfl, fun hs => response_of_finish hs.1 hf hj⟩))
    · exact absurd hts (htake k ts)
    · exact absurd hts (hrst ts)

/-- Settles O50: the other unit only adds its response, which the frame decoder's step does not read. -/
theorem otherUnitsCommuteWithTheFrameDecoder : Obligations.OtherUnitsCommuteWithTheFrameDecoder := by
  intro i s t hi ht
  obtain ⟨new, hnew, hwork⟩ := workStep_responses ht
  refine ⟨_, _, _, exec_atomic hi s, hwork _, exec_atomic hi t, ?_, rfl⟩
  rw [issue_responses, hnew, List.append_assoc, List.append_assoc]
  exact List.perm_append_comm.append_left _

/-- Settles O51: a step moves states with an unread difference to states with an unread difference. -/
theorem staleFrameAndCountAreNeverRead : Obligations.StaleFrameAndCountAreNeverRead := by
  intro s s' t ⟨hsame, hwhen⟩ h
  have hs' : withFrameAndCount s'.frame s'.m s = s' := by
    rw [← hsame]
    rfl
  have hu : Unread s'.frame s'.m s := by
    rcases hwhen with hb | hf | rfl
    · exact .inl hb
    · exact .inr (.inl hf)
    · exact .inr (.inr ⟨rfl, rfl⟩)
  rw [step, stepAt_eq_takeTurn] at h
  obtain ⟨frame, m, ht', hu'⟩ := takeTurn_unread (s := { s with turns := s.turns.tail }) hu h
  refine ⟨withFrameAndCount frame m t, ?_, rfl, hu'.imp_right (Or.imp_right ?_)⟩
  · rw [step, stepAt_eq_takeTurn, ← hs']
    exact ht'
  · rintro ⟨rfl, rfl⟩
    rfl

end Sys2Proof.Machine
end

section
/-! The block codec as a code (spec/40_block_codec.md, spec/30_encoding.md R56): the codewords are where the syndrome is
000, the correction reaches one, and different codewords differ in at least three bits. -/

namespace Sys2Proof.Machine

/-! ## Codewords and correction -/

/-- The syndrome is 000 exactly where the parity bits are those of the data bits (R74). -/
theorem syndrome_eq_zero {r : Codeword} : syndrome r = (false, false, false) ↔ r = henc (extract r) := by
  refine ⟨fun h => ?_, fun h => h ▸ syndrome_henc _⟩
  obtain ⟨p1, p2, d1, p3, d2, d3, d4⟩ := r
  simpa [syndrome_eq_xor_parity, henc, extract] using h

/-- The binary digits of the error position are the checks (R75). -/
theorem testBit_errorPos (c1 c2 c3 : Bit) : (errorPos (c1, c2, c3)).testBit 0 = c1 ∧
    (errorPos (c1, c2, c3)).testBit 1 = c2 ∧ (errorPos (c1, c2, c3)).testBit 2 = c3 := by
  revert c1 c2 c3
  decide

/-- Correcting is flipping at the error position, where position 0 flips nothing. -/
theorem correct_eq_flipAt (r : Codeword) (e : Nat) : correct r e = flipAt e r := by
  cases e <;> rfl

/-- The correction leaves no check set (R76). -/
theorem syndrome_correct (r : Codeword) : syndrome (correct r (errorPos (syndrome r))) = (false, false, false) := by
  obtain ⟨h1, h2, h3⟩ := testBit_errorPos (syndrome r).1 (syndrome r).2.1 (syndrome r).2.2
  rw [correct_eq_flipAt, syndrome_flipAt (errorPos_le_seven _), h1, h2, h3]
  simp

/-- The corrected word is the codeword of the data HDEC returns (R76, R77). -/
theorem correct_eq_henc_hdec (r : Codeword) : correct r (errorPos (syndrome r)) = henc (hdec r) :=
  syndrome_eq_zero.1 (syndrome_correct r)

/-! ## Distance -/

theorem distance_eq_sum (v w : Codeword) : distance v w =
    (v.p1 ^^ w.p1).toNat + (v.p2 ^^ w.p2).toNat + (v.d1 ^^ w.d1).toNat + (v.p3 ^^ w.p3).toNat +
      (v.d2 ^^ w.d2).toNat + (v.d3 ^^ w.d3).toNat + (v.d4 ^^ w.d4).toNat := by
  simp [distance, bitsOfWord, List.countP_cons, Bool.toNat, Bool.cond_eq_ite]
  omega

theorem toNat_xor_triangle (a b c : Bit) : (a ^^ c).toNat ≤ (a ^^ b).toNat + (b ^^ c).toNat := by
  revert a b c
  decide

theorem distance_triangle (u v w : Codeword) : distance u w ≤ distance u v + distance v w := by
  simp only [distance_eq_sum]
  have := toNat_xor_triangle u.p1 v.p1 w.p1
  have := toNat_xor_triangle u.p2 v.p2 w.p2
  have := toNat_xor_triangle u.d1 v.d1 w.d1
  have := toNat_xor_triangle u.p3 v.p3 w.p3
  have := toNat_xor_triangle u.d2 v.d2 w.d2
  have := toNat_xor_triangle u.d3 v.d3 w.d3
  have := toNat_xor_triangle u.d4 v.d4 w.d4
  omega

/-- A word and the word with one bit flipped differ in that bit alone. -/
theorem distance_flipAt {k : Nat} (hk : k ≤ 7) (w : Codeword) :
    distance w (flipAt k w) = if k = 0 then 0 else 1 := by
  interval_cases k <;> simp [distance_eq_sum, flipAt]

/-! ## The code is linear -/

/-- Exclusive-or of two blocks, bit by bit (R12). -/
def xorBlock (d e : DataBlock) : DataBlock := ⟨d.d1 ^^ e.d1, d.d2 ^^ e.d2, d.d3 ^^ e.d3, d.d4 ^^ e.d4⟩

theorem parity_xorBlock (d e : DataBlock) : parity (xorBlock d e) =
    ((parity d).1 ^^ (parity e).1, (parity d).2.1 ^^ (parity e).2.1, (parity d).2.2 ^^ (parity e).2.2) := by
  simp only [parity, xorBlock, Bool.xor_assoc, Bool.xor_left_comm]

theorem bitsOfWord_henc_xorBlock (d e : DataBlock) : bitsOfWord (henc (xorBlock d e)) =
    List.zipWith (fun x y => x ^^ y) (bitsOfWord (henc d)) (bitsOfWord (henc e)) := by
  rw [henc, parity_xorBlock]
  rfl

theorem xorBlock_eq_zero {d e : DataBlock} : xorBlock d e = ⟨false, false, false, false⟩ ↔ d = e := by
  obtain ⟨d1, d2, d3, d4⟩ := d
  obtain ⟨e1, e2, e3, e4⟩ := e
  simp [xorBlock]

/-- The distance of two words is the number of ones in their exclusive-or. -/
theorem distance_eq_countP (v w : Codeword) :
    distance v w = (List.zipWith (fun x y => x ^^ y) (bitsOfWord v) (bitsOfWord w)).countP id := by
  rw [← List.map_uncurry_zip_eq_zipWith, List.countP_map]
  rfl

/-- Only the zero block has a codeword of fewer than three ones (R56): its fifteen others, one by one. -/
theorem three_le_countP_henc {d : DataBlock} (h : d ≠ ⟨false, false, false, false⟩) :
    3 ≤ (bitsOfWord (henc d)).countP id := by
  obtain ⟨d1, d2, d3, d4⟩ := d
  revert d1 d2 d3 d4
  decide

/-- By linearity the distance of two codewords is the number of ones of a third (R56). -/
theorem three_le_distance_henc {d e : DataBlock} (h : d ≠ e) : 3 ≤ distance (henc d) (henc e) := by
  rw [distance_eq_countP, ← bitsOfWord_henc_xorBlock]
  exact three_le_countP_henc (mt xorBlock_eq_zero.1 h)

/-- A word at most one bit from a codeword decodes to that codeword's block: the correction also reaches a codeword at
most one bit away, and two bits do not lead from one codeword to another (R78). -/
theorem hdec_of_distance_le_one {b : DataBlock} {w : Codeword} (h : distance (henc b) w ≤ 1) : hdec w = b := by
  by_contra hne
  have hfar := three_le_distance_henc (Ne.symm hne)
  have hnear : distance w (henc (hdec w)) ≤ 1 := by
    rw [← correct_eq_henc_hdec, correct_eq_flipAt, distance_flipAt (errorPos_le_seven _)]
    split <;> decide
  have := distance_triangle (henc b) w (henc (hdec w))
  omega

/-! ## Two flipped bits -/

/-- The bits of a word with one flipped, by index. -/
theorem bitsOfWord_flipAt_getElem? (k i : Nat) (w : Codeword) : (bitsOfWord (flipAt k w))[i]? =
    if k = i + 1 then (bitsOfWord w)[i]?.map (fun b => !b) else (bitsOfWord w)[i]? := by
  cases k with
  | zero => rfl
  | succ k =>
    rw [bitsOfWord_flipAt, List.getElem?_modify]
    by_cases h : k = i <;> simp [h]

/-- Two flips are not undone by a third one at another position. -/
theorem flipAt_flipAt_ne {a b e : Nat} (ha : 1 ≤ a) (ha7 : a ≤ 7) (hb : a ≠ b) (he : a ≠ e) (w : Codeword) :
    flipAt a (flipAt b w) ≠ flipAt e w := by
  obtain ⟨i, rfl⟩ : ∃ i, a = i + 1 := ⟨a - 1, by omega⟩
  intro h
  have hi : i < (bitsOfWord w).length := by simp; omega
  have hbit := congrArg (fun v => (bitsOfWord v)[i]?) h
  simp [bitsOfWord_flipAt_getElem?, Ne.symm hb, Ne.symm he, List.getElem?_eq_getElem hi] at hbit

theorem xor_le_seven {a b : Nat} (ha : a ≤ 7) (hb : b ≤ 7) : a ^^^ b ≤ 7 :=
  Nat.le_of_lt_succ (Nat.xor_lt_two_pow (n := 3) (Nat.lt_succ_of_le ha) (Nat.lt_succ_of_le hb))

/-- Two flips in a codeword give the exclusive-or of their positions as error position (R79). -/
theorem errorPos_two_flips {a b : Nat} (ha : a ≤ 7) (hb : b ≤ 7) (d : DataBlock) :
    errorPos (syndrome (flipAt a (flipAt b (henc d)))) = a ^^^ b := by
  rw [syndrome_flipAt ha, syndrome_flipAt hb, syndrome_henc, ← errorPos_testBit (xor_le_seven ha hb)]
  simp only [Nat.testBit_xor, Bool.false_xor, Bool.xor_comm]

/-- HDEC answers another block: else the correction would be a third flip that undoes the two (R79). -/
theorem hdec_two_flips_ne {a b : Nat} (ha : 1 ≤ a) (ha7 : a ≤ 7) (hb : 1 ≤ b) (hb7 : b ≤ 7) (hab : a ≠ b)
    (d : DataBlock) : hdec (flipAt a (flipAt b (henc d))) ≠ d := by
  intro h
  have hcorr := correct_eq_henc_hdec (flipAt a (flipAt b (henc d)))
  rw [h, errorPos_two_flips ha7 hb7, correct_eq_flipAt] at hcorr
  have he : a ≠ a ^^^ b := Ne.symm (by simpa using Nat.ne_of_gt hb)
  refine flipAt_flipAt_ne ha ha7 hab he (henc d) ?_
  rw [← hcorr, flipAt_flipAt]
  simp [hcorr]

/-! ## The statements -/

/-- Settles O3: a word with syndrome 000 is the codeword of its own data bits. -/
theorem syndromeZeroExactlyForCodewords : Obligations.SyndromeZeroExactlyForCodewords :=
  fun r => ⟨fun h => ⟨extract r, syndrome_eq_zero.1 h⟩, fun ⟨d, hd⟩ => hd ▸ syndrome_henc d⟩

/-- Settles O4: the corrected word has syndrome 000, and it is one flip at the error position away. -/
theorem correctionReachesACodeword : Obligations.CorrectionReachesACodeword := by
  intro r
  refine ⟨hdec r, correct_eq_henc_hdec r, rfl, ?_⟩
  rw [← correct_eq_henc_hdec, correct_eq_flipAt, distance_flipAt (errorPos_le_seven _)]

/-- Settles O6: the error position is the exclusive-or, and the correction there makes another codeword. -/
theorem doubleFlipIsMiscorrectedSilently : Obligations.DoubleFlipIsMiscorrectedSilently := by
  intro d a b s ha ha7 hb hb7 hab
  refine ⟨errorPos_two_flips ha7 hb7 d, mt Nat.xor_eq_zero_iff.1 hab, ?_, ?_,
    _, hdec_two_flips_ne ha ha7 hb hb7 hab d, exec_hdec _ s⟩
  · simpa using Nat.ne_of_gt hb
  · simpa using Nat.ne_of_gt ha

/-- Settles O7: each clause is one of the lemmas above, and the blocks 0000 and 1000 are at distance 3. -/
theorem hencIsLinearWithDistanceThree : Obligations.HencIsLinearWithDistanceThree :=
  ⟨extract_henc, syndrome_henc, fun d e h => by rw [← extract_henc d, h, extract_henc],
    bitsOfWord_henc_xorBlock, fun _ _ => three_le_distance_henc,
    ⟨false, false, false, false⟩, ⟨true, false, false, false⟩, by decide, by decide⟩

/-- Settles O8, block by block. -/
theorem sixteenCodewordsAreAsTabled : Obligations.SixteenCodewordsAreAsTabled := by
  rintro ⟨d1, d2, d3, d4⟩
  revert d1 d2 d3 d4
  decide

end Sys2Proof.Machine
end

section
/-! The frame protocol by cases (spec/41_frame_protocol.md sections 2 to 4): which operands meet which error, one step of
the operation in each working state, and what one word or one bit of a frame decides. -/

namespace Sys2Proof.Machine

/-! ## Which error an operand meets -/

/-- Too short, a wrong header or a wrong terminator (R63, R90, R91). -/
theorem frameError_eq_frameFormatError {f : List Bit} : frameError f = some .frameFormatError ↔
    f.length < 16 ∨ slice f 0 8 ≠ Config.HEADER ∨ slice f (f.length - 8) f.length ≠ Config.TERMINATOR := by
  unfold frameError hasHeader hasTerminator
  split
  · simp_all
  · split
    · simp_all
    · split <;> simp_all

/-- None of those, and a body that is not whole words (R63, R93, R112). -/
theorem frameError_eq_malformedAlignmentError {f : List Bit} : frameError f = some .malformedAlignmentError ↔
    ¬(f.length < 16 ∨ slice f 0 8 ≠ Config.HEADER ∨ slice f (f.length - 8) f.length ≠ Config.TERMINATOR) ∧
      (f.length - 16) % 7 ≠ 0 := by
  rw [← frameError_eq_frameFormatError]
  unfold frameError
  split
  · simp
  · split
    · simp
    · split <;> simp_all

theorem status_responseOf_fdec {f : List Bit} (e : ErrorKind) :
    (responseOf (.fdec f)).status = statusOf e ↔ frameError f = some e := by
  cases he : frameError f with
  | none => cases e <;> simp [responseOf_fdec_legal he, statusOf]
  | some e' => cases e <;> cases e' <;> simp [responseOf_fdec_illegal he, statusOf]

theorem responseOf_fenc_misaligned {p : List Bit} (h : p.length % 4 ≠ 0) :
    responseOf (.fenc p) = ⟨.fenc, .malformedAlignmentError, []⟩ := by
  simp only [responseOf, responseOfAnswer, wrap_misaligned h, statusOf]

/-! ## Runs -/

theorem fdecSteps_legal {f : List Bit} (h : frameError f = none) : fdecSteps f = wordCount f + 2 := by
  simp [fdecSteps, h]

theorem fdecSteps_illegal {f : List Bit} {e : ErrorKind} (h : frameError f = some e) : fdecSteps f = 1 := by
  simp [fdecSteps, h]

/-- Before its last step the operation is in a working state and has issued nothing (R97, R98, R101). -/
theorem run_fdec_working {f : List Bit} {s : State} {k : Nat} (ht : s.turns = []) (hb : s.busy = false)
    (hk : k < fdecSteps f) : ∃ t, thenRun k (exec (.fdec f) s) = .next t ∧ t.busy = true ∧
      t.responses = s.responses ∧ (t.fstate = .scanning ∨ t.fstate = .decoding) := by
  rw [exec_fdec_idle hb, thenRun_next]
  cases k with
  | zero => exact ⟨_, rfl, rfl, rfl, .inl rfl⟩
  | succ n =>
    cases he : frameError f with
    | none =>
      rw [fdecSteps_legal he] at hk
      rw [runSteps_succ (step_start_legal ht he), runSteps_decodingAfter ht he (by omega)]
      exact ⟨_, rfl, rfl, rfl, .inr rfl⟩
    | some e =>
      rw [fdecSteps_illegal he] at hk
      omega

/-- The undisturbed run on an operand that is too short or has a wrong pattern (R90, R91, R100). -/
theorem run_fdec_frameFormatError {f : List Bit} {s : State} (ht : s.turns = []) (hb : s.busy = false)
    (he : frameError f = some .frameFormatError) : thenRun 1 (exec (.fdec f) s) = .next { s with
      fstate := .rejected, frame := f, j := 0, out := [], cause := .frameFormatError, busy := false,
      responses := s.responses ++ [⟨.fdec, .frameFormatError, []⟩] } :=
  run_fdec_illegal ht he hb

/-- The undisturbed run on a frame put together from its words (R94, R97 to R99). -/
theorem run_built_frame (ws : List Codeword) {s : State} (ht : s.turns = []) (hb : s.busy = false) :
    ∃ t, thenRun (ws.length + 2) (exec (.fdec (Config.HEADER ++ ws.flatMap bitsOfWord ++ Config.TERMINATOR)) s) =
      .next t ∧ t.responses = s.responses ++ [⟨.fdec, .ok, decodeWords ws⟩] ∧ t.fstate = .done := by
  have hlegal := built_frame_legal ws
  have hcount := wordsOf_bodyOf_length hlegal
  have hresp := responseOf_fdec_legal hlegal
  rw [built_frame_words] at hcount hresp
  refine ⟨_, by rw [hcount]; exact run_fdec_legal ht hlegal hb, ?_, rfl⟩
  rw [issue_responses, hresp]
  rfl

theorem decodeStep_outside {s : State} (hj : s.j < s.m) (hw : readWord s.frame s.j = none) :
    decodeStep s = .fault .indexOutOfRange := by
  simp [decodeStep, hj, hw]

/-! ## What a word and a bit of a frame decide -/

/-- Words that decode to the blocks of a payload decode to the payload (R102). -/
theorem decodeWords_eq_payload {p : List Bit} {ws : List Codeword} (hp : p.length % 4 = 0)
    (h : ws.map hdec = blocksOf p) : decodeWords ws = p := by
  rw [decodeWords_eq, h, flatMap_blocksOf hp]

/-- Words each at most one bit from FENC's decode to FENC's blocks (R102 item 2). -/
theorem map_hdec_of_one_flip {bs : List DataBlock} {ws : List Codeword}
    (h : List.Forall₂ (fun b w => distance (henc b) w ≤ 1) bs ws) : ws.map hdec = bs := by
  induction h with
  | nil => rfl
  | cons hb _ ih => rw [List.map_cons, hdec_of_distance_le_one hb, ih]

theorem slice_getElem? {s : List Bit} {a b k : Nat} (hk : k < b - a) : (slice s a b)[k]? = s[a + k]? := by
  simp [slice, hk]

/-- A flipped bit inside a slice changes the slice. -/
theorem slice_modify_not_ne {s : List Bit} {a b i : Nat} (ha : a ≤ i) (hb : i < b) (hi : i < s.length) :
    slice (s.modify i (fun x => !x)) a b ≠ slice s a b := by
  intro h
  have hbit := congrArg (fun t => t[i - a]?) h
  simp [slice_getElem? (show i - a < b - a by omega), Nat.add_sub_cancel' ha,
    List.getElem?_eq_getElem hi] at hbit

/-- A flipped bit of the header or the terminator of a legal frame is a wrong pattern (R102 item 3). -/
theorem frameError_modify_not {f : List Bit} {i : Nat} (h : frameError f = none)
    (hi : i < 8 ∨ f.length - 8 ≤ i ∧ i < f.length) :
    frameError (f.modify i (fun x => !x)) = some .frameFormatError := by
  obtain ⟨hlen, hhead, hterm, -⟩ := frameError_eq_none.1 h
  rw [frameError_eq_frameFormatError, List.length_modify, ← hhead, ← hterm]
  rcases hi with hi | ⟨hi, hi'⟩
  · exact .inr (.inl (slice_modify_not_ne (Nat.zero_le i) hi (by omega)))
  · exact .inr (.inr (slice_modify_not_ne hi hi' hi'))

/-! ## The statements -/

/-- Settles O16, from the response of FENC. -/
theorem fencRaisesOnMisalignedPayload : Obligations.FencRaisesOnMisalignedPayload := by
  intro p s hp
  rw [exec_fenc, responseOf_fenc_misaligned hp, issue]

/-- Settles O17, from the response of FENC. -/
theorem fencOfEmptyPayload : Obligations.FencOfEmptyPayload := by
  intro s
  rw [exec_fenc, issue]
  rfl

/-- Settles O18: an answer with status OK is HEADER, codewords and TERMINATOR. -/
theorem fencAnswersLegalFrames : Obligations.FencAnswersLegalFrames := by
  intro p s t frame ht hresp
  rw [exec_fenc] at ht
  cases ht
  have hframe : responseOf (.fenc p) = ⟨.fenc, .ok, frame⟩ := by simpa using hresp
  by_cases hp : p.length % 4 = 0
  · rw [responseOf_fenc_aligned hp] at hframe
    cases hframe
    exact frameError_eq_none.1 (built_frame_legal _)
  · rw [responseOf_fenc_misaligned hp] at hframe
    cases hframe

/-- Settles O21: the three cases are the three values of `frameError`. -/
theorem scanningStepChecksEverything : Obligations.ScanningStepChecksEverything := by
  intro s ts hturn hb hf L patternsHold
  have hstep : step s = scanStep { s with turns := ts } :=
    (step_work hturn hb).trans (workStep_scanning (s := { s with turns := ts }) hb hf)
  have hbad : ¬patternsHold ↔ s.frame.length < 16 ∨ slice s.frame 0 8 ≠ Config.HEADER ∨
      slice s.frame (s.frame.length - 8) s.frame.length ≠ Config.TERMINATOR := by
    simp only [patternsHold, L, not_and_or, Nat.not_le, ne_eq]
  rw [hstep]
  refine ⟨fun hbad' => ?_, fun hgood h7 => ?_, fun ⟨hlen, hhead, hterm⟩ h7 => ?_⟩
  · exact scanStep_illegal (s := { s with turns := ts }) (frameError_eq_frameFormatError.2 (hbad.1 hbad'))
  · exact scanStep_illegal (s := { s with turns := ts })
      (frameError_eq_malformedAlignmentError.2 ⟨fun h => hbad.2 h hgood, h7⟩)
  · exact scanStep_legal (s := { s with turns := ts }) (frameError_eq_none.2 ⟨hlen, hhead, hterm, h7⟩)

/-- Settles O22: the three cases are those of `decodeStep`. -/
theorem decodingStepTakesOneWord : Obligations.DecodingStepTakesOneWord := by
  intro s ts hturn hb hf
  have hstep : step s = decodeStep { s with turns := ts } :=
    (step_work hturn hb).trans (workStep_decoding (s := { s with turns := ts }) hb hf)
  rw [hstep]
  exact ⟨fun w hj hw => decodeStep_word (s := { s with turns := ts }) hj hw,
    fun hj hw => decodeStep_outside (s := { s with turns := ts }) hj hw,
    fun hj => decodeStep_end (s := { s with turns := ts }) hj⟩

/-- Settles O24: the run ends in DONE, and frame and plaintext are read by index. -/
theorem fdecDecodesWordsInOrder : Obligations.FdecDecodesWordsInOrder := by
  intro f m s hb ht hlen hhead hterm
  have hlegal : frameError f = none := frameError_eq_none.2 ⟨by omega, hhead, hterm, by omega⟩
  obtain rfl : wordCount f = m := by
    rw [wordCount, hlen]
    omega
  have hwords := wordsOf_bodyOf_length hlegal
  refine ⟨wordCount f + 2, decodeWords (wordsOf (bodyOf f)), ?_, by rw [decodeWords_length, hwords], fun j hj => ?_⟩
  · rw [run_fdec_legal ht hlegal hb, responseOf_fdec_legal hlegal]
    rfl
  · have hw := List.getElem?_eq_getElem (l := wordsOf (bodyOf f)) (i := j) (by rwa [hwords])
    refine ⟨_, wordOfBits_eq_some.2 (slice_legal_frame hlegal hw), ?_⟩
    rw [decodeWords_eq]
    exact slice_flatMap_bitsOfBlock (by rw [List.getElem?_map, hw, Option.map_some])

/-- Settles O26, by what the tests of R63 say of the operand. -/
theorem stateMachineAgreesWithUnwrap : Obligations.StateMachineAgreesWithUnwrap := by
  intro f s hb ht
  refine ⟨fun out hout => ?_, fun e he => ?_, fun k hk => run_fdec_working ht hb hk⟩
  · cases hf : frameError f with
    | some e => simp [unwrap_illegal hf] at hout
    | none =>
      obtain rfl : decodeWords (wordsOf (bodyOf f)) = out := by simpa [unwrap_legal hf] using hout
      rw [show 1 + ((f.length - 16) / 7 + 1) = wordCount f + 2 by rw [wordCount]; omega,
        run_fdec_legal ht hf hb, responseOf_fdec_legal hf]
      rfl
  · cases hf : frameError f with
    | none => simp [unwrap_legal hf] at he
    | some e' =>
      obtain rfl : e' = e := by simpa [unwrap_illegal hf] using he
      exact ⟨s.m, run_fdec_illegal ht hf hb⟩

/-- Settles O27: a wrong pattern fails the tests of R63 at any length, and the run then ends in REJECTED. -/
theorem wrongHeaderOrTerminatorIsRejected : Obligations.WrongHeaderOrTerminatorIsRejected :=
  fun _ s hb ht hwrong => ⟨s.m, run_fdec_frameFormatError ht hb (frameError_eq_frameFormatError.2 (.inr hwrong))⟩

/-- Settles O28: the length is tested before the patterns, so overlapping ones do not matter. -/
theorem shortFrameIsRejected : Obligations.ShortFrameIsRejected :=
  fun _ s hb ht hshort => ⟨s.m, run_fdec_frameFormatError ht hb (frameError_eq_frameFormatError.2 (.inl hshort))⟩

/-- Settles O29: the words are those of the body. -/
theorem legalFramesAreExactlyTheFrameFormat : Obligations.LegalFramesAreExactlyTheFrameFormat := by
  intro f
  constructor
  · intro h
    have hf := legal_frame_eq h
    exact ⟨wordsOf (bodyOf f), hf, (congrArg List.length hf).trans (built_frame_length _)⟩
  · rintro ⟨ws, rfl, -⟩
    exact built_frame_legal ws

/-- Settles O30: FENC by the length of its payload, FDEC by the tests of R63. -/
theorem errorsAreRaisedExactlyAsTabled : Obligations.ErrorsAreRaisedExactlyAsTabled := by
  refine ⟨fun _ => rfl, fun _ => rfl, fun p => ?_, fun f => ⟨?_, ?_⟩⟩
  · by_cases hp : p.length % 4 = 0
    · simp [responseOf_fenc_aligned hp, hp]
    · simp [responseOf_fenc_misaligned hp, hp]
  · exact (status_responseOf_fdec .frameFormatError).trans frameError_eq_frameFormatError
  · exact (status_responseOf_fdec .malformedAlignmentError).trans frameError_eq_malformedAlignmentError

/-- Settles O32: the words of FENC's frame are the codewords of the payload's blocks. -/
theorem frameRoundTrip : Obligations.FrameRoundTrip := by
  intro p s hb ht hp
  have hwords : decodeWords ((blocksOf p).map henc) = p := decodeWords_eq_payload hp (by simp [Function.comp_def])
  have hlen : ((blocksOf p).map henc).length = p.length / 4 := by rw [List.length_map, blocksOf_length hp]
  obtain ⟨u, hu, hresp, hdone⟩ := run_built_frame ((blocksOf p).map henc) (s := issue (responseOf (.fenc p)) s) ht hb
  rw [hlen] at hu
  rw [hwords] at hresp
  refine ⟨_, _, u, exec_fenc p s, ?_, hu, hresp, hdone⟩
  rw [issue_responses, responseOf_fenc_aligned hp]

/-- Settles O33: each word decodes to FENC's block. -/
theorem oneFlipPerWordIsCorrected : Obligations.OneFlipPerWordIsCorrected := by
  rintro p f ws s hb ht hp hflips rfl
  obtain ⟨t, hrun, hresp, hdone⟩ := run_built_frame ws ht hb
  rw [← hflips.length_eq, blocksOf_length hp] at hrun
  rw [decodeWords_eq_payload hp (map_hdec_of_one_flip hflips)] at hresp
  exact ⟨t, hrun, hresp, hdone⟩

/-- Settles O34, with the wrong pattern found in SCANNING. -/
theorem flippedPatternBitIsNeverCorrected : Obligations.FlippedPatternBitIsNeverCorrected :=
  fun _ _ _ hb ht hlegal hi => ⟨_, run_fdec_frameFormatError ht hb (frameError_modify_not hlegal hi), rfl, rfl⟩

/-- Settles O35: the plaintext is that of the words before, of the word itself and of the words after. -/
theorem aWordAffectsOnlyItsOwnBlock : Obligations.AWordAffectsOnlyItsOwnBlock := by
  intro pre post v w s hb ht
  have hrun : ∀ x : Codeword, ∃ t, thenRun (pre.length + post.length + 3)
      (exec (.fdec (Config.HEADER ++ (pre ++ x :: post).flatMap bitsOfWord ++ Config.TERMINATOR)) s) = .next t ∧
      t.responses = s.responses ++
        [⟨.fdec, .ok, decodeWords pre ++ bitsOfBlock (hdec x) ++ decodeWords post⟩] := by
    intro x
    obtain ⟨t, hrun, hresp, -⟩ := run_built_frame (pre ++ x :: post) ht hb
    have hwords : decodeWords (pre ++ x :: post) =
        decodeWords pre ++ bitsOfBlock (hdec x) ++ decodeWords post := by simp [decodeWords]
    rw [List.length_append, List.length_cons] at hrun
    exact ⟨t, hrun, hwords ▸ hresp⟩
  obtain ⟨t, ht, htresp⟩ := hrun v
  obtain ⟨u, hu, huresp⟩ := hrun w
  exact ⟨_, _, t, u, ht, hu, decodeWords_length pre, decodeWords_length post, htresp, huresp⟩

end Sys2Proof.Machine
end
